-- ==== Sys2Proof/Word.lean ====
section
/-!
DEFINITION. The word types of the RustBucket core: bytes, program-counter words, register indices (R5, R10, R12).
-/

namespace Sys2Proof

/-- A register, a memory cell, an immediate, an operand byte: 8 bits, unsigned (XLEN of R4, R5). -/
abbrev Byte := BitVec 8

/-- A program-counter value: 9 bits, so that 256 can be held (R12). -/
abbrev PcWord := BitVec 9

/-- The index of one of the 8 general registers (NREGS of R4, R10). -/
abbrev RegIdx := Fin 8

end Sys2Proof
end

