-- ==== Sys2Proof/Syntax.lean ====
section
/-!
DEFINITION. The syntax of the RustBucket ISA: the six formats (R52), the 27 opcodes and the 27 instructions (R56),
in the order of R56's table. An instruction holds its operand BYTES as fetched; a register byte of 8 or more is a
term of the syntax, which the meaning turns into InvalidRegister (R11, R53) and WellFormed refuses (log 7).
-/

namespace Sys2Proof

/-- The six instruction formats of R52. -/
inductive Format where
  | n   -- opcode
  | r   -- opcode, register
  | a   -- opcode, address
  | rr  -- opcode, register, register
  | ri  -- opcode, register, immediate
  | ra  -- opcode, register, address
deriving DecidableEq, Repr

/-- The 27 instructions of R56 without their operands: the domain of OPCODE_MAP (R4). -/
inductive Opcode where
  | inc | dec | movRI | movRR | add | sub | mul | div | load
  | store | ldxi | stxi | cmp | jmp | jeq | jne | jgt | jlt
  | jle | jge | push | pop | call | ret | out | hlt | nop
deriving DecidableEq, Repr

/-- All 27 opcodes in the order of R56's table. -/
def Opcode.all : List Opcode :=
  [.inc, .dec, .movRI, .movRR, .add, .sub, .mul, .div, .load,
   .store, .ldxi, .stxi, .cmp, .jmp, .jeq, .jne, .jgt, .jlt,
   .jle, .jge, .push, .pop, .call, .ret, .out, .hlt, .nop]

/-- The 27 instructions of R56, with their operand bytes in the order of the encoding (R52). -/
inductive Instr where
  | inc (reg : Byte)                -- INC reg (R70)
  | dec (reg : Byte)                -- DEC reg (R71)
  | movRI (reg imm : Byte)          -- MOV reg, imm (R80)
  | movRR (reg1 reg2 : Byte)        -- MOV dst, src (R81)
  | add (reg1 reg2 : Byte)          -- ADD dst, src (R72)
  | sub (reg1 reg2 : Byte)          -- SUB dst, src (R73)
  | mul (reg1 reg2 : Byte)          -- MUL dst, src (R74)
  | div (reg1 reg2 : Byte)          -- DIV dst, src (R75)
  | load (reg addr : Byte)          -- LOAD reg, addr (R82)
  | store (reg addr : Byte)         -- STORE reg, addr (R83)
  | ldxi (reg1 reg2 : Byte)         -- LDXI reg, reg(addr) (R84)
  | stxi (reg1 reg2 : Byte)         -- STXI reg, reg(addr) (R85)
  | cmp (reg1 reg2 : Byte)          -- CMP r1, r2 (R90)
  | jmp (addr : Byte)               -- JMP addr (R91)
  | jeq (addr : Byte)               -- JEQ addr (R92)
  | jne (addr : Byte)               -- JNE addr (R93)
  | jgt (addr : Byte)               -- JGT addr (R94)
  | jlt (addr : Byte)               -- JLT addr (R95)
  | jle (addr : Byte)               -- JLE addr (R96)
  | jge (addr : Byte)               -- JGE addr (R97)
  | push (reg : Byte)               -- PUSH reg (R100)
  | pop (reg : Byte)                -- POP reg (R101)
  | call (addr : Byte)              -- CALL addr (R102)
  | ret                             -- RET (R103)
  | out (reg : Byte)                -- OUT reg (R110)
  | hlt                             -- HLT (R111)
  | nop                             -- NOP (R112)
deriving DecidableEq, Repr

end Sys2Proof
end

