-- ==== Sys2Proof/Config.lean ====
section
/-!
DEFINITION. The parameters of the machine (R4, R19): memory size, stack bound, step limit and opcode map. They are
plain data, fixed at reset; their default values stand in Machine/Parameters.lean and their ranges in WellFormed.lean.
-/

namespace Sys2Proof

/-- OPCODE_MAP (R4, R56): the opcode byte of each of the 27 instructions, an OPEN parameter (D1). -/
structure OpcodeMap where
  (inc dec movRI movRR add sub mul div load : Byte)
  (store ldxi stxi cmp jmp jeq jne jgt jlt : Byte)
  (jle jge push pop call ret out hlt nop : Byte)
deriving DecidableEq, Repr

/-- The byte that a map assigns to an opcode. -/
def OpcodeMap.byteOf (m : OpcodeMap) : Opcode → Byte
  | .inc => m.inc
  | .dec => m.dec
  | .movRI => m.movRI
  | .movRR => m.movRR
  | .add => m.add
  | .sub => m.sub
  | .mul => m.mul
  | .div => m.div
  | .load => m.load
  | .store => m.store
  | .ldxi => m.ldxi
  | .stxi => m.stxi
  | .cmp => m.cmp
  | .jmp => m.jmp
  | .jeq => m.jeq
  | .jne => m.jne
  | .jgt => m.jgt
  | .jlt => m.jlt
  | .jle => m.jle
  | .jge => m.jge
  | .push => m.push
  | .pop => m.pop
  | .call => m.call
  | .ret => m.ret
  | .out => m.out
  | .hlt => m.hlt
  | .nop => m.nop

/-- The parameters of R4 that a model takes as arguments. -/
structure Config where
  /-- MEM_SIZE, the number of memory cells. -/
  memSize : Nat
  /-- STACK_LOW, the lowest value the stack pointer may take. -/
  stackLow : Nat
  /-- STEP_LIMIT, the optional bound on the instructions of one run. -/
  stepLimit : Option Nat
  /-- OPCODE_MAP. -/
  opcodeMap : OpcodeMap
deriving DecidableEq, Repr

/-- SP_INIT = MEM_SIZE - 1 (R4). -/
def Config.spInit (c : Config) : Nat := c.memSize - 1

/-- STACK_CAPACITY = MEM_SIZE - 1 - STACK_LOW (R4). -/
def Config.stackCapacity (c : Config) : Nat := c.memSize - 1 - c.stackLow

end Sys2Proof
end

