-- ==== Sys2Proof/WellFormed.lean ====
section
/-!
DEFINITION. What is well formed: an instruction whose register bytes name registers (R53), an injective opcode map
(R56) and a configuration in the ranges of R4. Each check is a Bool.
-/

namespace Sys2Proof

/-- A register operand byte is 0 to 7 (R53). -/
def regByteOk (b : Byte) : Bool := b.toNat < 8

/-- Every register operand of the instruction names a register; addresses and immediates are free (R57). -/
def Instr.wf : Instr → Bool
  | .inc r => regByteOk r
  | .dec r => regByteOk r
  | .movRI r _ => regByteOk r
  | .movRR r s => regByteOk r && regByteOk s
  | .add r s => regByteOk r && regByteOk s
  | .sub r s => regByteOk r && regByteOk s
  | .mul r s => regByteOk r && regByteOk s
  | .div r s => regByteOk r && regByteOk s
  | .load r _ => regByteOk r
  | .store r _ => regByteOk r
  | .ldxi r s => regByteOk r && regByteOk s
  | .stxi r s => regByteOk r && regByteOk s
  | .cmp r s => regByteOk r && regByteOk s
  | .jmp _ => true
  | .jeq _ => true
  | .jne _ => true
  | .jgt _ => true
  | .jlt _ => true
  | .jle _ => true
  | .jge _ => true
  | .push r => regByteOk r
  | .pop r => regByteOk r
  | .call _ => true
  | .ret => true
  | .out r => regByteOk r
  | .hlt => true
  | .nop => true

/-- OPCODE_MAP is injective: no byte is assigned twice (R4, R56). -/
def OpcodeMap.wf (m : OpcodeMap) : Bool := decide (Opcode.all.map m.byteOf).Nodup

/-- The configuration is in the ranges R4 and R180 admit; any other is refused (U7, D3, D5). -/
def Config.wf (c : Config) : Bool :=
  decide (1 ≤ c.memSize) && decide (c.memSize ≤ 256) && decide (c.stackLow ≤ c.memSize - 1) && c.opcodeMap.wf

end Sys2Proof
end

