-- ==== Sys2Proof/Machine/Parameters.lean ====
section
/-!
DEFINITION. The default values of the parameters (R4, R56): the standard opcode map and the standard configuration.
-/

namespace Sys2Proof

/-- The default OPCODE_MAP of R56: 0x01 to 0x1B in the order of the table (D1). -/
def OpcodeMap.standard : OpcodeMap where
  inc := 0x01
  dec := 0x02
  movRI := 0x03
  movRR := 0x04
  add := 0x05
  sub := 0x06
  mul := 0x07
  div := 0x08
  load := 0x09
  store := 0x0A
  ldxi := 0x0B
  stxi := 0x0C
  cmp := 0x0D
  jmp := 0x0E
  jeq := 0x0F
  jne := 0x10
  jgt := 0x11
  jlt := 0x12
  jle := 0x13
  jge := 0x14
  push := 0x15
  pop := 0x16
  call := 0x17
  ret := 0x18
  out := 0x19
  hlt := 0x1A
  nop := 0x1B

/-- The default configuration of R4: MEM_SIZE 256, STACK_LOW 0, no STEP_LIMIT, the default map. -/
def Config.standard : Config where
  memSize := 256
  stackLow := 0
  stepLimit := none
  opcodeMap := .standard

end Sys2Proof
end

