-- ==== Sys2Proof/Decode.lean ====
section
/-!
DEFINITION. The encoding (R50 to R58): the format of each opcode, the decoder over bytes, the encoder beside it, and
the numbering of an instruction's bits that spec/opcode_table.json uses. The decoder is total and rejects by name.
-/

namespace Sys2Proof

/-- How many operand bytes follow the opcode byte (R52). -/
def Format.operandCount : Format → Nat
  | .n => 0
  | .r | .a => 1
  | .rr | .ri | .ra => 2

/-- The format of each opcode (R52, R56). -/
def Opcode.format : Opcode → Format
  | .ret | .hlt | .nop => .n
  | .inc | .dec | .push | .pop | .out => .r
  | .jmp | .jeq | .jne | .jgt | .jlt | .jle | .jge | .call => .a
  | .movRR | .add | .sub | .mul | .div | .ldxi | .stxi | .cmp => .rr
  | .movRI => .ri
  | .load | .store => .ra

/-- The operand byte count of an opcode (R51: it depends on the opcode alone). -/
def Opcode.operandCount (k : Opcode) : Nat := k.format.operandCount

/-- The length of an instruction: `1 + n` (R51). -/
def Opcode.length (k : Opcode) : Nat := 1 + k.operandCount

/-- The instruction of an opcode and its first and second operand bytes; an operand the format lacks is ignored. -/
def Opcode.instr : Opcode → Byte → Byte → Instr
  | .inc, x, _ => .inc x
  | .dec, x, _ => .dec x
  | .movRI, x, y => .movRI x y
  | .movRR, x, y => .movRR x y
  | .add, x, y => .add x y
  | .sub, x, y => .sub x y
  | .mul, x, y => .mul x y
  | .div, x, y => .div x y
  | .load, x, y => .load x y
  | .store, x, y => .store x y
  | .ldxi, x, y => .ldxi x y
  | .stxi, x, y => .stxi x y
  | .cmp, x, y => .cmp x y
  | .jmp, x, _ => .jmp x
  | .jeq, x, _ => .jeq x
  | .jne, x, _ => .jne x
  | .jgt, x, _ => .jgt x
  | .jlt, x, _ => .jlt x
  | .jle, x, _ => .jle x
  | .jge, x, _ => .jge x
  | .push, x, _ => .push x
  | .pop, x, _ => .pop x
  | .call, x, _ => .call x
  | .ret, _, _ => .ret
  | .out, x, _ => .out x
  | .hlt, _, _ => .hlt
  | .nop, _, _ => .nop

/-- The opcode of an instruction. -/
def Instr.opcode : Instr → Opcode
  | .inc _ => .inc
  | .dec _ => .dec
  | .movRI _ _ => .movRI
  | .movRR _ _ => .movRR
  | .add _ _ => .add
  | .sub _ _ => .sub
  | .mul _ _ => .mul
  | .div _ _ => .div
  | .load _ _ => .load
  | .store _ _ => .store
  | .ldxi _ _ => .ldxi
  | .stxi _ _ => .stxi
  | .cmp _ _ => .cmp
  | .jmp _ => .jmp
  | .jeq _ => .jeq
  | .jne _ => .jne
  | .jgt _ => .jgt
  | .jlt _ => .jlt
  | .jle _ => .jle
  | .jge _ => .jge
  | .push _ => .push
  | .pop _ => .pop
  | .call _ => .call
  | .ret => .ret
  | .out _ => .out
  | .hlt => .hlt
  | .nop => .nop

/-- The operand bytes of an instruction in the order they follow the opcode byte (R50, R52). -/
def Instr.operands : Instr → List Byte
  | .inc x => [x]
  | .dec x => [x]
  | .movRI x y => [x, y]
  | .movRR x y => [x, y]
  | .add x y => [x, y]
  | .sub x y => [x, y]
  | .mul x y => [x, y]
  | .div x y => [x, y]
  | .load x y => [x, y]
  | .store x y => [x, y]
  | .ldxi x y => [x, y]
  | .stxi x y => [x, y]
  | .cmp x y => [x, y]
  | .jmp x => [x]
  | .jeq x => [x]
  | .jne x => [x]
  | .jgt x => [x]
  | .jlt x => [x]
  | .jle x => [x]
  | .jge x => [x]
  | .push x => [x]
  | .pop x => [x]
  | .call x => [x]
  | .ret => []
  | .out x => [x]
  | .hlt => []
  | .nop => []

/-- Why the bytes at hand are no instruction. -/
inductive DecodeError where
  | noOpcode       -- there is no byte to read an opcode from
  | unknownOpcode  -- the map assigns the first byte to no instruction (R57)
  | truncated      -- the operand bytes are not all there
deriving DecidableEq, Repr

/-- The opcode that a map assigns a byte to, if any (R55 step 2: the whole byte selects, mask 0xFF). -/
def OpcodeMap.find (m : OpcodeMap) (b : Byte) : Option Opcode :=
  Opcode.all.find? fun k => m.byteOf k == b

/-- The operand bytes of an opcode taken from the bytes after it; the bytes left over come second. -/
def takeOperands (k : Opcode) (rest : List Byte) : Except DecodeError (Instr × List Byte) :=
  match k.operandCount, rest with
  | 0, rest => .ok (k.instr 0 0, rest)
  | 1, x :: rest => .ok (k.instr x 0, rest)
  | 2, x :: y :: rest => .ok (k.instr x y, rest)
  | _, _ => .error .truncated

/-- The decoder: the first instruction of a sequence of bytes, with the bytes after it (R51, R55, R56). -/
def decode (m : OpcodeMap) : List Byte → Except DecodeError (Instr × List Byte)
  | [] => .error .noOpcode
  | b :: rest =>
    match m.find b with
    | none => .error .unknownOpcode
    | some k => takeOperands k rest

/-- The encoder: the opcode byte, then the operand bytes (R50, R52). -/
def encode (m : OpcodeMap) (i : Instr) : List Byte := m.byteOf i.opcode :: i.operands

/-- The longest instruction has 3 bytes (R51). -/
def maxLength : Nat := 3

/-- The bytes of a table word: bit 0 is the least significant bit of the first byte, and every bit from `nbits` up
is 0. The list is as long as the longest instruction. -/
def tableBytes (nbits w : Nat) : List Byte :=
  (List.range maxLength).map fun n => BitVec.ofNat 8 (w % 2 ^ nbits / 256 ^ n)

/-- The instruction that the decoder reads, under the default map, from a word of spec/opcode_table.json. -/
def decodeTableWord (nbits w : Nat) : Option Instr :=
  match decode .standard (tableBytes nbits w) with
  | .ok (i, _) => some i
  | .error _ => none

end Sys2Proof
end

