-- ==== Sys2Proof/Machine/Memory.lean ====
section
/-!
DEFINITION. Memory cells as data (R15, R30): a list of (address, byte) pairs in one canonical form, addresses strictly
rising and no entry equal to what an unlisted address reads as. The bound MEM_SIZE is checked in Machine/Ops.lean (R33).
-/

namespace Sys2Proof.Machine

/-- The cells whose byte is not the reset byte, by rising address. -/
structure Memory where
  cells : List Host.Cell
deriving DecidableEq, Repr

/-- What an unlisted address reads as: every cell is 0 at reset (R15, R23). -/
def unlistedByte : Byte := 0

/-- The byte listed at an address, or the unlisted byte. -/
def readCells : List Host.Cell → Nat → Byte
  | [], _ => unlistedByte
  | (b, w) :: rest, a => if a = b then w else readCells rest a

/-- A cell put in front of a list, unless it holds the unlisted byte. -/
def consCell (a : Nat) (v : Byte) (rest : List Host.Cell) : List Host.Cell :=
  if v = unlistedByte then rest else (a, v) :: rest

/-- The list after one byte is stored, its order kept. -/
def writeCells : List Host.Cell → Nat → Byte → List Host.Cell
  | [], a, v => consCell a v []
  | (b, w) :: rest, a, v =>
    if a < b then consCell a v ((b, w) :: rest)
    else if a = b then consCell a v rest
    else (b, w) :: writeCells rest a v

/-- Addresses rise strictly from `lo` and no cell holds the unlisted byte. -/
def cellsRise : Nat → List Host.Cell → Bool
  | _, [] => true
  | lo, (a, v) :: rest => decide (lo ≤ a) && decide (v ≠ unlistedByte) && cellsRise (a + 1) rest

/-- Memory as reset leaves it: every cell 0, nothing listed (R23). -/
def Memory.empty : Memory := ⟨[]⟩

/-- The byte at an address, no bound checked. -/
def Memory.read (m : Memory) (a : Nat) : Byte := readCells m.cells a

/-- Memory with one byte stored, no bound checked. -/
def Memory.write (m : Memory) (a : Nat) (v : Byte) : Memory := ⟨writeCells m.cells a v⟩

/-- Memory with a sequence of bytes stored at ascending addresses from `a` (R181). -/
def Memory.load (m : Memory) : Nat → List Byte → Memory
  | _, [] => m
  | a, b :: rest => (m.write a b).load (a + 1) rest

/-- The canonical form. -/
def Memory.wf (m : Memory) : Bool := cellsRise 0 m.cells

/-- Every listed address is below `n`. -/
def Memory.below (m : Memory) (n : Nat) : Bool := m.cells.all fun c => decide (c.1 < n)

end Sys2Proof.Machine
end

