-- ==== Sys2Proof/Machine/State.lean ====
section
/-!
DEFINITION. The state of the machine (R10 to R18, inventory of 10_state.md), its fault kinds (R150), its refusals,
and the state after reset (R23, R180).
-/

namespace Sys2Proof.Machine

/-- The six fault kinds of R150. An instruction or a fetch that faults does not stop the model: the fault is TAKEN as
a next state whose status records the kind (R152, R153; log 3), which is safe. The one operation that answers
`Outcome.fault` is `loadProgram`, with `outOfBounds`, because R181 returns that failure to the host. -/
inductive Fault where
  /-- Fetch: the opcode byte is assigned to no instruction (R55, R57). -/
  | unknownOpcode
  /-- A register operand byte is 8 or more (R11, R53). -/
  | invalidRegister
  /-- A fetch, a data access, a CALL's return address or a loaded program out of bounds (R33, R55, R102, R181). -/
  | outOfBounds
  /-- DIV by a register that holds 0 (R75). -/
  | divisionByZero
  /-- PUSH or CALL with `sp = STACK_LOW` (R100, R102). -/
  | stackOverflow
  /-- POP or RET with `sp = SP_INIT` (R101, R103). -/
  | stackUnderflow
deriving DecidableEq, Repr

/-- Why the model gives no state. No step and no instruction raises any of these: only host operations do. -/
inductive Refusal where
  /-- An instruction whose arm has no meaning; no arm of this model answers it. Safe. -/
  | notModelled (mnemonic : String)
  /-- `construct` with parameters outside R4's ranges (R180, U7). Safe: the spec says a model refuses it. -/
  | badConfiguration
  /-- `loadProgram` or `startRun` outside the status Ready (R184, R185, U8). Safe: the spec says a model refuses it. -/
  | notReady
  /-- A second `loadProgram` before the run (R184, D15, U8). Safe: the spec says a model refuses it. -/
  | alreadyLoaded
deriving DecidableEq, Repr

/-- The run status (R16). -/
inductive Status where
  | ready               -- after reset, before the run starts
  | running
  | halted              -- HLT was executed
  | faulted (k : Fault) -- a fault of kind k ended the run
  | stepLimit           -- the optional step limit stopped the run
deriving DecidableEq, Repr

/-- The two flags of R13. -/
structure Flags where
  /-- `Z` -/
  zero : Bool
  /-- `G` -/
  greater : Bool
deriving DecidableEq, Repr

/-- All the state the spec gives the machine, the parameters it runs under, and one field of the model's own. -/
structure State where
  /-- The parameters, fixed at reset and never changed by a step (R19; log 1). -/
  cfg : Config
  /-- `x[0]` to `x[7]` (R10). -/
  regs : Vector Byte 8
  /-- The program counter, 0 to 256 (R12). -/
  pc : PcWord
  /-- The stack pointer: the next free cell (R14). -/
  sp : Byte
  /-- `Z` and `G` (R13). -/
  flags : Flags
  /-- `M[0]` to `M[MEM_SIZE-1]` (R15). -/
  mem : Memory
  /-- The run status (R16). -/
  status : Status
  /-- The output event stream, in emission order (R17). -/
  out : List Byte
  /-- Instructions completed in this run (R18). -/
  steps : Nat
  /-- THE MODEL'S OWN: `load_program` has been performed since reset (log 6). -/
  loaded : Bool
deriving DecidableEq, Repr

/-- What a meaning, a step or a host operation answers. -/
abbrev Result := Host.Outcome State Fault Refusal

/-- The state after reset with a configuration (R23, R180); `construct` refuses a configuration out of range. -/
def State.resetWith (c : Config) : State where
  cfg := c
  regs := Vector.replicate 8 0
  pc := 0
  sp := BitVec.ofNat 8 c.spInit
  flags := { zero := false, greater := false }
  mem := .empty
  status := .ready
  out := []
  steps := 0
  loaded := false

/-- The state after reset with the default parameters (R4, R23). -/
def State.reset : State := .resetWith .standard

end Sys2Proof.Machine
end

