-- ==== Sys2Proof/Machine/Alu.lean ====
section
/-!
DEFINITION. The arithmetic of R76: unsigned operands, the exact integer result, reduced modulo 256.
-/

namespace Sys2Proof.Machine

/-- An exact integer result reduced modulo 256 (R76). -/
def wrap8 (n : Int) : Byte := BitVec.ofInt 8 n

/-- `(a + b) mod 256` (R72, R76). -/
def addByte (a b : Byte) : Byte := wrap8 (a.toNat + b.toNat)

/-- `(a - b) mod 256` (R73, R76). -/
def subByte (a b : Byte) : Byte := wrap8 (a.toNat - b.toNat)

/-- `(a * b) mod 256`, the low byte of the product (R74, R76). -/
def mulByte (a b : Byte) : Byte := wrap8 (a.toNat * b.toNat)

/-- `floor(a / b)`, or DivisionByZero whatever the dividend (R75, R76). -/
def divByte (a b : Byte) : Except Fault Byte :=
  if b.toNat = 0 then .error .divisionByZero else .ok (BitVec.ofNat 8 (a.toNat / b.toNat))

/-- `(a + 1) mod 256` (R70). -/
def incByte (a : Byte) : Byte := wrap8 (a.toNat + 1)

/-- `(a - 1) mod 256` (R71). -/
def decByte (a : Byte) : Byte := wrap8 (a.toNat - 1)

end Sys2Proof.Machine
end

