-- ==== Sys2Proof/Machine/Flags.lean ====
section
/-!
DEFINITION. The flags CMP computes (R90), the conditions of the six conditional jumps over them (R98), and the packed
view of the host's accessor (R13).
-/

namespace Sys2Proof.Machine

/-- `Z <- (a = b)`, `G <- (a > b)`, unsigned (R90). -/
def compareBytes (a b : Byte) : Flags where
  zero := decide (a.toNat = b.toNat)
  greater := decide (b.toNat < a.toNat)

/-- JEQ: `Z` (R98). -/
def Flags.condEq (f : Flags) : Bool := f.zero

/-- JNE: `not Z` (R98). -/
def Flags.condNe (f : Flags) : Bool := !f.zero

/-- JGT: `G` (R98). -/
def Flags.condGt (f : Flags) : Bool := f.greater

/-- JLT: `not Z and not G` (R98). -/
def Flags.condLt (f : Flags) : Bool := !f.zero && !f.greater

/-- JLE: `not G` (R98). -/
def Flags.condLe (f : Flags) : Bool := !f.greater

/-- JGE: `Z or G` (R98). -/
def Flags.condGe (f : Flags) : Bool := f.zero || f.greater

/-- The packed view: `Z` in bit 0, `G` in bit 1 (R13). -/
def Flags.packed (f : Flags) : BitVec 2 := BitVec.ofBool f.greater ++ BitVec.ofBool f.zero

end Sys2Proof.Machine
end

