-- ==== Sys2Proof/Machine/Operands.lean ====
section
/-!
DEFINITION. Operand decoding at execution (R11, R53, R54, R86): register bytes, targets, effective addresses.
-/

namespace Sys2Proof.Machine

/-- A register operand byte names `x[b]` when `b <= 7`, else InvalidRegister; the whole byte counts (R11, R53). -/
def regIndex (b : Byte) : Except Fault RegIdx :=
  if h : b.toNat < 8 then .ok ⟨b.toNat, h⟩ else .error .invalidRegister

/-- A byte as a program-counter value, numerically equal (R6, R54). -/
def zext9 (b : Byte) : PcWord := b.setWidth 9

/-- The effective address of the direct mode: the `addr` byte (R86). -/
def directAddress (addr : Byte) : Nat := addr.toNat

end Sys2Proof.Machine
end

