-- ==== Sys2Proof/Machine/Ops.lean ====
section
/-!
DEFINITION. The named operations every meaning is made of: registers, bounded memory access (R33), the advance of the
program counter (R20, R21), the stack (R104), the output stream (R17), and TAKING A FAULT (R152, R153). There is no
return from a fault (R158), so no operation for one.
-/

namespace Sys2Proof.Machine

/-- `x[i]` (R6). -/
def State.reg (s : State) (i : RegIdx) : Byte := s.regs[i]

/-- `x[i] <- v` (R6). -/
def State.setReg (s : State) (i : RegIdx) (v : Byte) : State := { s with regs := s.regs.set i v }

/-- The state with other flags. -/
def State.setFlags (s : State) (f : Flags) : State := { s with flags := f }

/-- The state with another stack pointer. -/
def State.setSp (s : State) (v : Byte) : State := { s with sp := v }

/-- The state with another memory. -/
def State.setMem (s : State) (m : Memory) : State := { s with mem := m }

/-- The state with another run status. -/
def State.setStatus (s : State) (x : Status) : State := { s with status := x }

/-- `Out(v)`: a byte appended to the output event stream (R6, R17). -/
def State.emit (s : State) (v : Byte) : State := { s with out := s.out ++ [v] }

/-- A completed instruction: `pc` becomes the target and `steps` counts one more (R18, R20 step 5). -/
def State.completeAt (s : State) (target : PcWord) : State := { s with pc := target, steps := s.steps + 1 }

/-- `next = pc + length`, an ordinary integer sum (R6, R21). -/
def State.nextAddress (s : State) (length : Nat) : Nat := s.pc.toNat + length

/-- A completed instruction that leaves `pc <- next`. -/
def State.advance (s : State) (length : Nat) : State := s.completeAt (BitVec.ofNat 9 (s.nextAddress length))

/-- A completed instruction that sets `pc <- zext_9(target)`; the target is not checked (R99). -/
def State.jump (s : State) (target : Byte) : State := s.completeAt (zext9 target)

/-- TAKING A FAULT of kind k: the status becomes `Faulted(k)` and nothing else changes (R152, R153). -/
def State.raise (s : State) (k : Fault) : Result := .next (s.setStatus (.faulted k))

/-- An instruction's effect is settled: its whole new state, or the fault it raised and nothing it would have
written (R20, R153). -/
def State.settle (s : State) : Except Fault State → Result
  | .ok t => .next t
  | .error k => s.raise k

/-- `MemRead(a, 1)`: OutOfBounds when `a >= MEM_SIZE` (R33). -/
def State.memRead (s : State) (a : Nat) : Except Fault Byte :=
  if a < s.cfg.memSize then .ok (s.mem.read a) else .error .outOfBounds

/-- `MemWrite(a, 1, v)`: OutOfBounds when `a >= MEM_SIZE` (R33). -/
def State.memWrite (s : State) (a : Nat) (v : Byte) : Except Fault State :=
  if a < s.cfg.memSize then .ok (s.setMem (s.mem.write a v)) else .error .outOfBounds

/-- The effective address of the register-indirect mode: the value of the second register (R86). -/
def State.indirectAddress (s : State) (j : RegIdx) : Nat := (s.reg j).toNat

/-- The stack is full: a push would take `sp` below STACK_LOW (R104). -/
def State.stackFull (s : State) : Bool := decide (s.sp.toNat = s.cfg.stackLow)

/-- The stack is empty: `sp = SP_INIT` (R14, R104). -/
def State.stackEmpty (s : State) : Bool := decide (s.sp.toNat = s.cfg.spInit)

/-- Whether the operation may go on; else the fault it raises. -/
def guardFault (bad : Bool) (k : Fault) : Except Fault Unit := if bad then .error k else .ok ()

/-- A push: `M[sp] <- v`, then `sp <- sp - 1` (R104). -/
def State.push (s : State) (v : Byte) : Except Fault State := do
  let t ← s.memWrite s.sp.toNat v
  return t.setSp (s.sp - 1)

/-- The address a pop reads: the new `sp` (R101, R103). -/
def State.popAddress (s : State) : Nat := (s.sp + 1).toNat

/-- A pop: `sp <- sp + 1`, then the byte at the new `sp`; the cell keeps its value (R104). -/
def State.pop (s : State) : Except Fault (Byte × State) := do
  let v ← s.memRead s.popAddress
  return (v, s.setSp (s.sp + 1))

/-- A register rewritten from its own value by an instruction of format R (R70, R71). -/
def State.unaryOp (s : State) (f : Byte → Byte) (r : Byte) : Result :=
  s.settle do
    let i ← regIndex r
    return (s.setReg i (f (s.reg i))).advance 2

/-- A register rewritten from its own value and a second one by an instruction of format RR: both bytes are checked,
then both registers read, then the operation may fault, then the first register is written (R53, R72 to R75). -/
def State.binaryOp (s : State) (f : Byte → Byte → Except Fault Byte) (r1 r2 : Byte) : Result :=
  s.settle do
    let i ← regIndex r1
    let j ← regIndex r2
    let v ← f (s.reg i) (s.reg j)
    return (s.setReg i v).advance 3

/-- `x[i] <- MemRead(ea, 1)` and `pc <- next`, by a 3-byte instruction (R82, R84). -/
def State.loadFrom (s : State) (i : RegIdx) (ea : Nat) : Except Fault State := do
  let v ← s.memRead ea
  return (s.setReg i v).advance 3

/-- `MemWrite(ea, 1, x[i])` and `pc <- next`, by a 3-byte instruction (R83, R85). -/
def State.storeTo (s : State) (i : RegIdx) (ea : Nat) : Except Fault State := do
  let t ← s.memWrite ea (s.reg i)
  return t.advance 3

/-- A conditional jump of format A: taken to the target, or on to the next instruction (R92 to R97). -/
def State.branch (s : State) (taken : Bool) (target : Byte) : Result :=
  .next (if taken then s.jump target else s.advance 2)

/-- The bytes from `a` up stored where they lie inside memory; the rest is dropped. -/
def State.placeBytes (s : State) : Nat → List Byte → State
  | _, [] => s
  | a, b :: rest =>
    if a < s.cfg.memSize then (s.setMem (s.mem.write a b)).placeBytes (a + 1) rest else s

end Sys2Proof.Machine
end

