-- ==== Sys2Proof/Machine/Arithmetic.lean ====
section
/-!
DEFINITION. The meanings of INC, DEC, ADD, SUB, MUL and DIV (40_arithmetic.md, R70 to R76). None writes a flag.
-/

namespace Sys2Proof.Machine

/-- INC reg (R70). -/
def execInc (r : Byte) (s : State) : Result := s.unaryOp incByte r

/-- DEC reg (R71). -/
def execDec (r : Byte) (s : State) : Result := s.unaryOp decByte r

/-- ADD dst, src (R72). -/
def execAdd (r1 r2 : Byte) (s : State) : Result := s.binaryOp (fun a b => .ok (addByte a b)) r1 r2

/-- SUB dst, src (R73). -/
def execSub (r1 r2 : Byte) (s : State) : Result := s.binaryOp (fun a b => .ok (subByte a b)) r1 r2

/-- MUL dst, src (R74). -/
def execMul (r1 r2 : Byte) (s : State) : Result := s.binaryOp (fun a b => .ok (mulByte a b)) r1 r2

/-- DIV dst, src (R75): InvalidRegister is checked before DivisionByZero. -/
def execDiv (r1 r2 : Byte) (s : State) : Result := s.binaryOp divByte r1 r2

end Sys2Proof.Machine
end

