-- ==== Sys2Proof/Machine/CompareJump.lean ====
section
/-!
DEFINITION. The meanings of CMP, JMP and the six conditional jumps (42_compare_jump.md, R90 to R99).
-/

namespace Sys2Proof.Machine

/-- CMP r1, r2 (R90): both flags are written, no register is. -/
def execCmp (r1 r2 : Byte) (s : State) : Result :=
  s.settle do
    let i ← regIndex r1
    let j ← regIndex r2
    return (s.setFlags (compareBytes (s.reg i) (s.reg j))).advance 3

/-- JMP addr (R91). -/
def execJmp (addr : Byte) (s : State) : Result := .next (s.jump addr)

/-- JEQ addr (R92). -/
def execJeq (addr : Byte) (s : State) : Result := s.branch s.flags.condEq addr

/-- JNE addr (R93). -/
def execJne (addr : Byte) (s : State) : Result := s.branch s.flags.condNe addr

/-- JGT addr (R94). -/
def execJgt (addr : Byte) (s : State) : Result := s.branch s.flags.condGt addr

/-- JLT addr (R95). -/
def execJlt (addr : Byte) (s : State) : Result := s.branch s.flags.condLt addr

/-- JLE addr (R96). -/
def execJle (addr : Byte) (s : State) : Result := s.branch s.flags.condLe addr

/-- JGE addr (R97). -/
def execJge (addr : Byte) (s : State) : Result := s.branch s.flags.condGe addr

end Sys2Proof.Machine
end

