-- ==== Sys2Proof/Machine/DataMovement.lean ====
section
/-!
DEFINITION. The meanings of the two MOVs, LOAD, STORE, LDXI and STXI (41_data_movement.md, R80 to R86). None writes a
flag; InvalidRegister comes before OutOfBounds (R154).
-/

namespace Sys2Proof.Machine

/-- MOV reg, imm (R80): the immediate is never checked as a register. -/
def execMovRI (r imm : Byte) (s : State) : Result :=
  s.settle do
    let i ← regIndex r
    return (s.setReg i imm).advance 3

/-- MOV dst, src (R81). -/
def execMovRR (r1 r2 : Byte) (s : State) : Result := s.binaryOp (fun _ b => .ok b) r1 r2

/-- LOAD reg, addr (R82): the direct mode. -/
def execLoad (r addr : Byte) (s : State) : Result :=
  s.settle do
    let i ← regIndex r
    s.loadFrom i (directAddress addr)

/-- STORE reg, addr (R83): the direct mode; the register is the source of the data. -/
def execStore (r addr : Byte) (s : State) : Result :=
  s.settle do
    let i ← regIndex r
    s.storeTo i (directAddress addr)

/-- LDXI reg, reg (R84): the register-indirect mode; the address is read before the register is written. -/
def execLdxi (r1 r2 : Byte) (s : State) : Result :=
  s.settle do
    let i ← regIndex r1
    let j ← regIndex r2
    s.loadFrom i (s.indirectAddress j)

/-- STXI reg, reg (R85): the register-indirect mode; no register is modified. -/
def execStxi (r1 r2 : Byte) (s : State) : Result :=
  s.settle do
    let i ← regIndex r1
    let j ← regIndex r2
    s.storeTo i (s.indirectAddress j)

end Sys2Proof.Machine
end

