-- ==== Sys2Proof/Machine/Stack.lean ====
section
/-!
DEFINITION. The meanings of PUSH, POP, CALL and RET (43_stack_call.md, R100 to R105). Every check precedes every write
(R153); none touches a flag.
-/

namespace Sys2Proof.Machine

/-- PUSH reg (R100). -/
def execPush (r : Byte) (s : State) : Result :=
  s.settle do
    let i ← regIndex r
    guardFault s.stackFull .stackOverflow
    let t ← s.push (s.reg i)
    return t.advance 2

/-- POP reg (R101). -/
def execPop (r : Byte) (s : State) : Result :=
  s.settle do
    let i ← regIndex r
    guardFault s.stackEmpty .stackUnderflow
    let (v, t) ← s.pop
    return (t.setReg i v).advance 2

/-- CALL addr (R102): StackOverflow, then OutOfBounds when the return address does not fit a byte (R154, D9). -/
def execCall (addr : Byte) (s : State) : Result :=
  s.settle do
    guardFault s.stackFull .stackOverflow
    guardFault (decide (255 < s.nextAddress 2)) .outOfBounds
    let t ← s.push (BitVec.ofNat 8 (s.nextAddress 2))
    return t.jump addr

/-- RET (R103): the byte on top, whoever pushed it. -/
def execRet (s : State) : Result :=
  s.settle do
    guardFault s.stackEmpty .stackUnderflow
    let (v, t) ← s.pop
    return t.jump v

end Sys2Proof.Machine
end

