-- ==== Sys2Proof/Machine/System.lean ====
section
/-!
DEFINITION. The meanings of OUT, HLT and NOP (44_system_io.md, R110 to R113).
-/

namespace Sys2Proof.Machine

/-- OUT reg (R110). -/
def execOut (r : Byte) (s : State) : Result :=
  s.settle do
    let i ← regIndex r
    return (s.emit (s.reg i)).advance 2

/-- HLT (R111): `pc` advances (D12), the instruction counts as completed, the run ends. -/
def execHlt (s : State) : Result := .next ((s.advance 1).setStatus .halted)

/-- NOP (R112). -/
def execNop (s : State) : Result := .next (s.advance 1)

end Sys2Proof.Machine
end

