-- ==== Sys2Proof/Machine/Dispatch.lean ====
section
/-!
DEFINITION. One arm per instruction: the meaning of each (R20 step 4, R56).
-/

namespace Sys2Proof.Machine

def exec (i : Instr) (s : State) : Host.Outcome State Fault Refusal :=
  match i with
  | .inc r => Sys2Proof.Machine.execInc r s
  | .dec r => Sys2Proof.Machine.execDec r s
  | .movRI r imm => Sys2Proof.Machine.execMovRI r imm s
  | .movRR r1 r2 => Sys2Proof.Machine.execMovRR r1 r2 s
  | .add r1 r2 => Sys2Proof.Machine.execAdd r1 r2 s
  | .sub r1 r2 => Sys2Proof.Machine.execSub r1 r2 s
  | .mul r1 r2 => Sys2Proof.Machine.execMul r1 r2 s
  | .div r1 r2 => Sys2Proof.Machine.execDiv r1 r2 s
  | .load r addr => Sys2Proof.Machine.execLoad r addr s
  | .store r addr => Sys2Proof.Machine.execStore r addr s
  | .ldxi r1 r2 => Sys2Proof.Machine.execLdxi r1 r2 s
  | .stxi r1 r2 => Sys2Proof.Machine.execStxi r1 r2 s
  | .cmp r1 r2 => Sys2Proof.Machine.execCmp r1 r2 s
  | .jmp addr => Sys2Proof.Machine.execJmp addr s
  | .jeq addr => Sys2Proof.Machine.execJeq addr s
  | .jne addr => Sys2Proof.Machine.execJne addr s
  | .jgt addr => Sys2Proof.Machine.execJgt addr s
  | .jlt addr => Sys2Proof.Machine.execJlt addr s
  | .jle addr => Sys2Proof.Machine.execJle addr s
  | .jge addr => Sys2Proof.Machine.execJge addr s
  | .push r => Sys2Proof.Machine.execPush r s
  | .pop r => Sys2Proof.Machine.execPop r s
  | .call addr => Sys2Proof.Machine.execCall addr s
  | .ret => Sys2Proof.Machine.execRet s
  | .out r => Sys2Proof.Machine.execOut r s
  | .hlt => Sys2Proof.Machine.execHlt s
  | .nop => Sys2Proof.Machine.execNop s

end Sys2Proof.Machine
end

