-- ==== Sys2Proof/Machine/Fetch.lean ====
section
/-!
DEFINITION. Fetch and decode at the program counter (R20 steps 1 to 3, R55).
-/

namespace Sys2Proof.Machine

/-- The bytes a fetch may read: those at `pc`, `pc + 1`, `pc + 2` that lie inside memory (R30, R55). -/
def State.window (s : State) : List Byte :=
  (List.range maxLength).filterMap fun n => (s.memRead (s.pc.toNat + n)).toOption

/-- The fault that fetch raises where the decoder refuses (R55). -/
def fetchFault : DecodeError → Fault
  | .noOpcode => .outOfBounds
  | .unknownOpcode => .unknownOpcode
  | .truncated => .outOfBounds

/-- The instruction at the program counter, or the fault of fetching it (R55). -/
def State.fetch (s : State) : Except Fault Instr :=
  match decode s.cfg.opcodeMap s.window with
  | .ok (i, _) => .ok i
  | .error e => .error (fetchFault e)

/-- The step limit is set and reached (R182). -/
def State.limitReached (s : State) : Bool := decide (s.cfg.stepLimit = some s.steps)

end Sys2Proof.Machine
end

