-- ==== Sys2Proof/Machine/HostOps.lean ====
section
/-!
DEFINITION. What the host can do (R163, R180 to R185): reset, load a program, start the run, inspect; and the numeric
views of faults and status (R151, R188).
-/

namespace Sys2Proof.Machine

/-- Reset with a configuration (R180); a configuration out of range is refused (U7). -/
def construct (c : Config) : Result :=
  if c.wf then .next (.resetWith c) else .refused .badConfiguration

/-- `load_program` (R181): Ready only, once (R184; log 6); OutOfBounds to the host when the program is longer than
memory, and then nothing is written. The bytes are not validated. -/
def loadProgram (bytes : List Byte) (s : State) : Result :=
  if s.status ≠ .ready then .refused .notReady
  else if s.loaded then .refused .alreadyLoaded
  else if s.cfg.memSize < bytes.length then .fault .outOfBounds
  else .next { s with mem := s.mem.load 0 bytes, loaded := true }

/-- The start of `run()` (R182): Ready becomes Running; a second run is refused (U8). -/
def startRun (s : State) : Result :=
  if s.status = .ready then .next (s.setStatus .running) else .refused .notReady

/-- The statuses that end a run and that only reset leaves (R16, R183). -/
def Status.terminal : Status → Bool
  | .ready | .running => false
  | .halted | .faulted _ | .stepLimit => true

/-- The host may inspect before a run and after it, not during it (R163, R185). -/
def State.inspectable (s : State) : Bool := decide (s.status ≠ .running)

/-- The register accessor (R185). -/
def State.inspectReg (s : State) (i : RegIdx) : Option Byte :=
  if s.inspectable then some (s.reg i) else none

/-- The memory accessor (R185); an address outside memory names no cell. -/
def State.inspectMem (s : State) (a : Nat) : Option Byte :=
  if s.inspectable then (s.memRead a).toOption else none

/-- The flags accessor, in the packed view of R13 (R185). -/
def State.inspectFlags (s : State) : Option (BitVec 2) :=
  if s.inspectable then some s.flags.packed else none

/-- The output events, read after the run has ended (R185). -/
def State.inspectOut (s : State) : Option (List Byte) :=
  if s.status.terminal then some s.out else none

/-- The numeric fault codes (R150, R151). -/
def Fault.code : Fault → Nat
  | .unknownOpcode => 1
  | .invalidRegister => 2
  | .outOfBounds => 3
  | .divisionByZero => 4
  | .stackOverflow => 5
  | .stackUnderflow => 6

/-- The illustrative 4-bit status encoding of R188. -/
def Status.code : Status → BitVec 4
  | .ready => 0
  | .running => 7
  | .halted => 8
  | .stepLimit => 9
  | .faulted k => BitVec.ofNat 4 k.code

end Sys2Proof.Machine
end

