-- ==== Sys2Proof/Machine/Step.lean ====
section
/-!
DEFINITION. One step of the machine: the run loop of R182 around the step of R20, and the placing of an instruction
where the next step fetches it.
-/

namespace Sys2Proof.Machine

/-- One fetch, decode and execute (R20), for a running machine: `exec` makes the whole effect, the advance of `pc` and
the count of `steps` included. -/
def runInstruction (s : State) : Result :=
  match s.fetch with
  | .ok i => exec i s
  | .error k => s.raise k

/-- One step. Ready: the host's `run()` starts (R182; log 4). Running: one turn of the run loop, the step limit tested
before the fetch (R182). A terminal status is absorbing (R16; log 5). -/
def step (s : State) : Host.Outcome State Fault Refusal :=
  match s.status with
  | .ready => startRun s
  | .running => if s.limitReached then .next (s.setStatus .stepLimit) else runInstruction s
  | .halted => .next s
  | .faulted _ => .next s
  | .stepLimit => .next s

/-- The state with a table word's bytes stored at `pc` (those that lie inside memory) and the run started, so that the
next step fetches and runs it (log 8). -/
def State.withFetchWord (s : State) (nbits w : Nat) : State :=
  (s.placeBytes s.pc.toNat (tableBytes nbits w)).setStatus .running

end Sys2Proof.Machine
end

