-- ==== Sys2Proof/Machine/Assembler.lean ====
section
/-!
DEFINITION. The two-pass assembler (47_assembler.md, R120 to R137): a pure function from text to bytecode or one error.
Text is a list of characters. What the rules leave open of the lexical corners is log 9.
-/

namespace Sys2Proof.Assembler

/-- A piece of assembly text. -/
abbrev Text := List Char

/-- The four error kinds of R132. -/
inductive ErrorKind where
  | unknownMnemonic
  | invalidOperand
  | duplicateLabel
  | undefinedLabel
deriving DecidableEq, Repr

/-- The one error an assembly reports (R133): its kind, the 1-based line and the offending token. -/
structure AsmError where
  kind : ErrorKind
  line : Nat
  token : Text
deriving DecidableEq, Repr

/-! ### Lines (R121) -/

/-- White space: spaces and tabs (R121), and the carriage return, wherever it stands (R121, D23: lines end at LF and
CR is white space). -/
def isBlank (c : Char) : Bool := c == ' ' || c == '\t' || c == '\r'

/-- The pieces of a text between separators, in order; there is always one more piece than separators. -/
def splitAtChar (sep : Char) : Text → List Text
  | [] => [[]]
  | c :: rest =>
    if c = sep then [] :: splitAtChar sep rest
    else
      match splitAtChar sep rest with
      | [] => [[c]]
      | piece :: pieces => (c :: piece) :: pieces

/-- Leading and trailing blanks removed. -/
def trim (t : Text) : Text := ((t.dropWhile isBlank).reverse.dropWhile isBlank).reverse

/-- A line without its comment and the blanks around it (R121). -/
def cleanLine (line : Text) : Text := trim (line.takeWhile fun c => c != ';')

/-- A non-empty line (R122): its number from 1, the name before a colon if the line has a label definition, and the
instruction text, empty if there is none. -/
structure Line where
  number : Nat
  label : Option Text
  body : Text
deriving DecidableEq, Repr

/-- The first token is a label definition when a colon follows it, blanks between allowed (R122); a line that begins
with a colon has no name before it and is read as an instruction (log 9). -/
def parseLine (number : Nat) (t : Text) : Line :=
  let name := t.takeWhile fun c => !isBlank c && c != ':'
  match (t.drop name.length).dropWhile isBlank with
  | [] => { number := number, label := none, body := t }
  | c :: rest =>
    if c = ':' ∧ name ≠ [] then { number := number, label := some name, body := trim rest }
    else { number := number, label := none, body := t }

/-- The non-empty lines of a source (R121): empty lines are counted and ignored. -/
def sourceLines (src : Text) : List Line :=
  (((splitAtChar '\n' src).map cleanLine).zipIdx 1).filterMap fun p =>
    if p.1 = [] then none else some (parseLine p.2 p.1)

/-! ### Tokens (R122 to R126) -/

/-- The mnemonic token of an instruction text: everything up to the first blank (R122). DESIGN CHOICE (log 15): a comma
does not end it, so one glued to the mnemonic belongs to the token, which then spells no mnemonic. -/
def mnemonicToken (body : Text) : Text := body.takeWhile fun c => !isBlank c

/-- The operand texts of an instruction: what stands between single commas, trimmed; none at all when nothing follows
the mnemonic (R122). -/
def operandTokens (body : Text) : List Text :=
  let rest := trim (body.dropWhile fun c => !isBlank c)
  if rest = [] then [] else (splitAtChar ',' rest).map trim

/-- What a mnemonic stands for: one instruction, or one of the two MOVs (R124, R129). -/
inductive Mnemonic where
  | op (k : Opcode)
  | mov
deriving DecidableEq, Repr

/-- The spellings R124 lists (it counts 25 and lists 26: log 10). -/
def mnemonicTable : List (Text × Mnemonic) :=
  [("INC".toList, .op .inc), ("DEC".toList, .op .dec), ("MOV".toList, .mov), ("ADD".toList, .op .add),
   ("SUB".toList, .op .sub), ("MUL".toList, .op .mul), ("DIV".toList, .op .div), ("LOAD".toList, .op .load),
   ("STORE".toList, .op .store), ("LDXI".toList, .op .ldxi), ("STXI".toList, .op .stxi), ("CMP".toList, .op .cmp),
   ("JMP".toList, .op .jmp), ("JEQ".toList, .op .jeq), ("JNE".toList, .op .jne), ("JGT".toList, .op .jgt),
   ("JLT".toList, .op .jlt), ("JLE".toList, .op .jle), ("JGE".toList, .op .jge), ("PUSH".toList, .op .push),
   ("POP".toList, .op .pop), ("CALL".toList, .op .call), ("RET".toList, .op .ret), ("OUT".toList, .op .out),
   ("HLT".toList, .op .hlt), ("NOP".toList, .op .nop)]

/-- The mnemonic a token spells, upper case only (R124). -/
def mnemonicOf (token : Text) : Option Mnemonic := mnemonicTable.lookup token

/-- The size of an instruction, from the mnemonic alone (R127). -/
def Mnemonic.size : Mnemonic → Nat
  | .op k => k.length
  | .mov => 3

/-- An ASCII decimal digit's value. -/
def decimalDigit (c : Char) : Option Nat :=
  if '0' ≤ c ∧ c ≤ '9' then some (c.toNat - '0'.toNat) else none

/-- An ASCII hexadecimal digit's value, either case (R126). -/
def hexDigit (c : Char) : Option Nat :=
  if 'a' ≤ c ∧ c ≤ 'f' then some (c.toNat - 'a'.toNat + 10)
  else if 'A' ≤ c ∧ c ≤ 'F' then some (c.toNat - 'A'.toNat + 10)
  else decimalDigit c

/-- The number a sequence of digits writes, after a value already read. -/
def digitsValue (digit : Char → Option Nat) (base : Nat) : Nat → Text → Option Nat
  | acc, [] => some acc
  | acc, c :: rest =>
    match digit c with
    | none => none
    | some d => digitsValue digit base (acc * base + d) rest

/-- The number one or more digits write. -/
def numberOf (digit : Char → Option Nat) (base : Nat) (t : Text) : Option Nat :=
  if t = [] then none else digitsValue digit base 0 t

/-- A numeric literal: `0x` or `0X` and hexadecimal digits, or decimal digits (R126). The range is checked later. -/
def literalOf (t : Text) : Option Nat :=
  if t.take 2 = ['0', 'x'] ∨ t.take 2 = ['0', 'X'] then numberOf hexDigit 16 (t.drop 2)
  else numberOf decimalDigit 10 t

/-- A letter or underscore (R123, ASCII). -/
def isNameStart (c : Char) : Bool := c.isAlpha || c == '_'

/-- A letter, digit or underscore (R123, ASCII). -/
def isNameChar (c : Char) : Bool := c.isAlphanum || c == '_'

/-- The text has the shape of a name (R123). -/
def isName : Text → Bool
  | [] => false
  | c :: rest => isNameStart c && rest.all isNameChar

/-- The register names `r0` to `r7` (R125). -/
def registerTable : List (Text × RegIdx) :=
  [("r0".toList, 0), ("r1".toList, 1), ("r2".toList, 2), ("r3".toList, 3),
   ("r4".toList, 4), ("r5".toList, 5), ("r6".toList, 6), ("r7".toList, 7)]

/-- The register a token names. -/
def registerOf (t : Text) : Option RegIdx := registerTable.lookup t

/-- A legal label name: a name that is no register (R123). -/
def legalLabel (t : Text) : Bool := isName t && (registerOf t).isNone

/-- The kinds of operand token, and what is none of them (R125). -/
inductive Operand where
  | register (i : RegIdx)
  | literal (n : Nat)
  | label (name : Text)
  | malformed
deriving DecidableEq, Repr

/-- The kind of an operand token, tried in the order of R125. -/
def classify (t : Text) : Operand :=
  match registerOf t with
  | some i => .register i
  | none =>
    match literalOf t with
    | some n => .literal n
    | none => if isName t then .label t else .malformed

/-! ### Pass 1: layout (R128) -/

/-- The label table: each name with its address (R128). -/
abbrev LabelTable := List (Text × Nat)

/-- The table after a line's label definition, if it has one: an illegal name, then a second definition, is an error
(R123, R128). -/
def defineLabel (labels : LabelTable) (counter : Nat) (l : Line) : Except AsmError LabelTable :=
  match l.label with
  | none => .ok labels
  | some name =>
    if legalLabel name = false then .error ⟨.invalidOperand, l.number, name⟩
    else if (labels.lookup name).isSome then .error ⟨.duplicateLabel, l.number, name⟩
    else .ok ((name, counter) :: labels)

/-- The bytes a line's instruction takes: 0 when it has none (R128). -/
def lineSize (l : Line) : Except AsmError Nat :=
  if l.body = [] then .ok 0
  else
    match mnemonicOf (mnemonicToken l.body) with
    | none => .error ⟨.unknownMnemonic, l.number, mnemonicToken l.body⟩
    | some m => .ok m.size

/-- Pass 1: the label table and the final address counter; operands are not examined (R128). -/
def pass1 : List Line → LabelTable → Nat → Except AsmError (LabelTable × Nat)
  | [], labels, counter => .ok (labels, counter)
  | l :: rest, labels, counter => do
    let labels' ← defineLabel labels counter l
    let size ← lineSize l
    pass1 rest labels' (counter + size)

/-! ### Pass 2: encoding (R130, R131) -/

/-- A value encoded in one byte; above 255 it is an InvalidOperand (R126, R131). -/
def byteOperand (line : Nat) (token : Text) (n : Nat) : Except AsmError Byte :=
  if n ≤ 255 then .ok (BitVec.ofNat 8 n) else .error ⟨.invalidOperand, line, token⟩

/-- An operand in a `reg` position (R127). -/
def regOperand (line : Nat) (token : Text) : Except AsmError Byte :=
  match classify token with
  | .register i => .ok (BitVec.ofNat 8 i.val)
  | _ => .error ⟨.invalidOperand, line, token⟩

/-- An operand in an `imm` position (R127). -/
def immOperand (line : Nat) (token : Text) : Except AsmError Byte :=
  match classify token with
  | .literal n => byteOperand line token n
  | _ => .error ⟨.invalidOperand, line, token⟩

/-- An operand in an `addr` position: a literal, or a label that the table resolves (R127, R131). -/
def addrOperand (labels : LabelTable) (line : Nat) (token : Text) : Except AsmError Byte :=
  match classify token with
  | .literal n => byteOperand line token n
  | .label name =>
    match labels.lookup name with
    | none => .error ⟨.undefinedLabel, line, token⟩
    | some a => byteOperand line token a
  | _ => .error ⟨.invalidOperand, line, token⟩

/-- MOV with its two operands: the kind of the second selects the instruction (R129). -/
def movInstr (line : Nat) (dst src : Text) : Except AsmError Instr := do
  let r ← regOperand line dst
  match classify src with
  | .register j => return .movRR r (BitVec.ofNat 8 j.val)
  | _ =>
    let v ← immOperand line src
    return .movRI r v

/-- The instruction of a mnemonic and its operand tokens: first the count, then each operand left to right (R127,
R133). A wrong count is reported with the mnemonic's token. -/
def operandsInstr (labels : LabelTable) (line : Nat) (token : Text) (m : Mnemonic) (operands : List Text) :
    Except AsmError Instr :=
  match m, operands with
  | .mov, [x, y] => movInstr line x y
  | .mov, _ => .error ⟨.invalidOperand, line, token⟩
  | .op k, operands =>
    match k.format, operands with
    | .n, [] => .ok (k.instr 0 0)
    | .r, [x] => do
      let r ← regOperand line x
      return k.instr r 0
    | .a, [x] => do
      let a ← addrOperand labels line x
      return k.instr a 0
    | .rr, [x, y] => do
      let r ← regOperand line x
      let s ← regOperand line y
      return k.instr r s
    | .ri, [x, y] => do
      let r ← regOperand line x
      let v ← immOperand line y
      return k.instr r v
    | .ra, [x, y] => do
      let r ← regOperand line x
      let a ← addrOperand labels line y
      return k.instr r a
    | _, _ => .error ⟨.invalidOperand, line, token⟩

/-- The instruction of a line, if it has one (R130). -/
def lineInstr (labels : LabelTable) (l : Line) : Except AsmError (List Instr) :=
  if l.body = [] then .ok []
  else
    match mnemonicOf (mnemonicToken l.body) with
    | none => .error ⟨.unknownMnemonic, l.number, mnemonicToken l.body⟩
    | some m => do
      let i ← operandsInstr labels l.number (mnemonicToken l.body) m (operandTokens l.body)
      return [i]

/-- Pass 2 over the same lines in the same order (R130). -/
def pass2 (labels : LabelTable) : List Line → Except AsmError (List Instr)
  | [] => .ok []
  | l :: rest => do
    let is ← lineInstr labels l
    let more ← pass2 labels rest
    return is ++ more

/-! ### The whole (R120) -/

/-- The instructions of a source: all of pass 1, then pass 2; the first error wins (R133). -/
def assembleInstrs (src : Text) : Except AsmError (List Instr) := do
  let (labels, _) ← pass1 (sourceLines src) [] 0
  pass2 labels (sourceLines src)

/-- `assemble(source)`: the complete bytecode or exactly one error (R120), over the opcode map that the CPU uses. -/
def assemble (m : OpcodeMap) (src : Text) : Except AsmError (List Byte) :=
  match assembleInstrs src with
  | .ok is => .ok (is.flatMap (encode m))
  | .error e => .error e

/-! ### Listings: the assembly text of an instruction (R59), written so that it can be assembled again -/

/-- A hexadecimal digit. -/
def digitChar (n : Nat) : Char := Char.ofNat (if n < 10 then 48 + n else 55 + n)

/-- A byte as a literal: `0x` and two hexadecimal digits (R126). -/
def byteText (b : Byte) : Text := ['0', 'x', digitChar (b.toNat / 16), digitChar (b.toNat % 16)]

/-- A register operand byte as a register name (R125); it names one only when it is 0 to 7. -/
def regText (b : Byte) : Text := ['r', digitChar b.toNat]

/-- The spelling of an opcode's mnemonic (R124); both MOVs are spelled `MOV`. -/
def mnemonicText (k : Opcode) : Text :=
  match mnemonicTable.find? fun row => row.2 = .op k with
  | some row => row.1
  | none => "MOV".toList

/-- The operands of a format as written, one comma between two (R52, R122). -/
def operandsText (f : Format) (operands : List Byte) : Text :=
  match f, operands with
  | .r, [x] => ' ' :: regText x
  | .a, [x] => ' ' :: byteText x
  | .rr, [x, y] => ' ' :: regText x ++ ',' :: regText y
  | .ri, [x, y] => ' ' :: regText x ++ ',' :: byteText y
  | .ra, [x, y] => ' ' :: regText x ++ ',' :: byteText y
  | _, _ => []

/-- The assembly text of an instruction, without labels. -/
def instrText (i : Instr) : Text := mnemonicText i.opcode ++ operandsText i.opcode.format i.operands

/-- A listing: one instruction a line, each line ended by a line feed. -/
def listing (is : List Instr) : Text := is.flatMap fun i => instrText i ++ ['\n']

end Sys2Proof.Assembler
end

