-- ==== Sys2Proof/Machine/Boot.lean ====
section
/-!
DEFINITION. The boot sequence of R184 and the end of a run (R183), over any number of steps.
-/

namespace Sys2Proof.Machine

/-- The whole boot sequence (R184): reset, load, `run()`, and `n` turns of the run loop after its start. -/
def boot (c : Config) (bytes : List Byte) (n : Nat) : Result :=
  match construct c with
  | .next s =>
    match loadProgram bytes s with
    | .next t => Host.Core.run Sys2Proof.core (n + 1) t
    | other => other
  | other => other

/-- `t` ends the run of `s`: some number of steps from `s` reaches it and its status is terminal (R183). A terminal
state stays as it is, so this names the first terminal state of the run. -/
def EndsRun (s t : State) : Prop :=
  ∃ n, Host.Core.run Sys2Proof.core n s = .next t ∧ t.status.terminal = true

end Sys2Proof.Machine
end

