-- ==== Sys2Proof/Safety.lean ====
section
/-!
DEFINITION. What counts as a safe state and a safe run, and the frames, in the terms the statements use: the invariant
of R22, the statuses a run may end in, and what an instruction leaves unchanged.
-/

namespace Sys2Proof.Machine

/-- The invariants of R22 (with R4's ranges and the canonical form of memory), for any program. -/
structure State.Inv (s : State) : Prop where
  /-- The configuration is in range (R4). -/
  cfgOk : s.cfg.wf = true
  /-- `0 <= pc <= 256` (R22). -/
  pcOk : s.pc.toNat ≤ 256
  /-- `STACK_LOW <= sp` (R14, R22). -/
  spLow : s.cfg.stackLow ≤ s.sp.toNat
  /-- `sp <= MEM_SIZE - 1` (R14, R22). -/
  spHigh : s.sp.toNat ≤ s.cfg.memSize - 1
  /-- Not (`Z` and `G`) (R13, R22). -/
  flagsOk : ¬(s.flags.zero = true ∧ s.flags.greater = true)
  /-- The memory list is canonical. -/
  memCanonical : s.mem.wf = true
  /-- No cell lies at or beyond MEM_SIZE (R15). -/
  memInside : s.mem.below s.cfg.memSize = true

/-- The run has not ended in a fault (R182: `Faulted(k)` is failure). -/
def State.FaultFree (s : State) : Prop := ∀ k, s.status ≠ .faulted k

/-- The state of a machine about to fetch: running, and no step limit reached (R182). -/
abbrev State.AboutToFetch (s : State) : Prop := s.status = .running ∧ s.limitReached = false

/-- Every register but `x[i]` holds what it held. -/
def SameOtherRegs (i : RegIdx) (s t : State) : Prop := ∀ k, k ≠ i → t.reg k = s.reg k

/-- Every register holds what it held. -/
def SameRegs (s t : State) : Prop := ∀ k, t.reg k = s.reg k

/-- Every byte of memory reads as it read. -/
def SameMem (s t : State) : Prop := ∀ a, t.mem.read a = s.mem.read a

/-- Every byte of memory reads as it read, but for the byte at `ea`. -/
def SameMemBut (ea : Nat) (s t : State) : Prop := ∀ a, a ≠ ea → t.mem.read a = s.mem.read a

/-- The parameters, the load flag and the status are unchanged and one instruction more is counted (R18, R19, R20). -/
def CompletedStep (s t : State) : Prop :=
  t.cfg = s.cfg ∧ t.loaded = s.loaded ∧ t.status = s.status ∧ t.steps = s.steps + 1

/-- The frame of an instruction that changes one register at most: flags, `sp`, memory and output as they were. -/
def RegisterFrame (s t : State) : Prop :=
  t.flags = s.flags ∧ t.sp = s.sp ∧ SameMem s t ∧ t.out = s.out ∧ CompletedStep s t

/-- The frame of a jump: nothing but `pc` and the count of steps changes. -/
def ControlFrame (s t : State) : Prop := SameRegs s t ∧ RegisterFrame s t

/-- An instruction whose operand bytes would lie past the end of memory faults at fetch with OutOfBounds, whatever
its first operand (R55 step 3). -/
def TruncatedFetchFaults (k : Opcode) : Prop :=
  ∀ s : State, s.AboutToFetch → s.cfg.wf = true → s.pc.toNat < s.cfg.memSize →
    s.mem.read s.pc.toNat = s.cfg.opcodeMap.byteOf k → s.cfg.memSize - 1 < s.pc.toNat + k.operandCount →
    step s = .next { s with status := .faulted .outOfBounds }

/-- A one-byte instruction whose opcode lies inside memory is executed: its fetch cannot fault (R55, R103). -/
def OneByteFetchRuns (k : Opcode) : Prop :=
  ∀ s : State, s.AboutToFetch → s.cfg.wf = true → s.pc.toNat < s.cfg.memSize →
    s.mem.read s.pc.toNat = s.cfg.opcodeMap.byteOf k → step s = exec (k.instr 0 0) s

/-- A fetch at `ea` in any machine about to fetch that holds the memory of `t` sees the byte `b` as its opcode, and
makes the checks of R55 on it: unknown, operand bytes beyond memory, else the opcode's instruction (R40). -/
def FetchSees (t : State) (ea : Nat) (b : Byte) : Prop :=
  ∀ v : State, v.mem = t.mem → v.cfg = t.cfg → v.AboutToFetch → v.pc.toNat = ea →
    ((∀ k, v.cfg.opcodeMap.byteOf k ≠ b) → step v = .next { v with status := .faulted .unknownOpcode }) ∧
    ∀ k, v.cfg.opcodeMap.byteOf k = b →
      step v =
        if v.cfg.memSize - 1 < ea + k.operandCount then .next { v with status := .faulted .outOfBounds }
        else exec (k.instr (v.mem.read (ea + 1)) (v.mem.read (ea + 2))) v

/-- The address an instruction would store to, computed as its meaning computes it (R30). -/
def storeAddress (i : Instr) (s : State) : Option Nat :=
  match i with
  | .store _ addr => some (directAddress addr)
  | .stxi _ r2 => (regIndex r2).toOption.map s.indirectAddress
  | .push _ | .call _ => some s.sp.toNat
  | .inc _ | .dec _ | .movRI _ _ | .movRR _ _ | .add _ _ | .sub _ _ | .mul _ _ | .div _ _ | .load _ _ | .ldxi _ _
  | .cmp _ _ | .jmp _ | .jeq _ | .jne _ | .jgt _ | .jlt _ | .jle _ | .jge _ | .pop _ | .ret | .out _ | .hlt
  | .nop => none

/-- The faults an instruction may raise once it has been fetched, by the table of R150. -/
def mayRaise (k : Opcode) : Fault → Bool
  | .unknownOpcode => false
  | .invalidRegister => k.format = .r || k.format = .rr || k.format = .ri || k.format = .ra
  | .outOfBounds => k = .load || k = .store || k = .ldxi || k = .stxi || k = .call
  | .divisionByZero => k = .div
  | .stackOverflow => k = .push || k = .call
  | .stackUnderflow => k = .pop || k = .ret

/-- PUSH executed once for each register byte of a list, in order. -/
def pushAll : List Byte → State → Result
  | [], s => .next s
  | r :: rest, s =>
    match exec (.push r) s with
    | .next t => pushAll rest t
    | other => other

end Sys2Proof.Machine
end

