-- ==== Sys2Proof/Certificates/Slice0/Obligations.lean ====
section
/-!
DEFINITION. The statements for the provers, each a Prop; the rule of spec/ that each formalises stands in its docstring
and in OBLIGATIONS.json. A next state whose status is `faulted` is a taken fault (R152; log 3).
-/

open Sys2Proof Sys2Proof.Machine Sys2Proof.Assembler

/-- INC reg (R70): the register's new value, its frame, the register fault and the fetch fault. -/
def Obligations.IncAddsOneModulo256 : Prop :=
  (∀ x : Byte, encode .standard (.inc x) = [0x01, x]) ∧
  (∀ (s : State) (r : Byte), 8 ≤ r.toNat →
    exec (.inc r) s = .next { s with status := .faulted .invalidRegister }) ∧
  (∀ (s : State) (r : Byte) (i : RegIdx), r.toNat = i.val → s.pc.toNat ≤ 256 →
    ∃ t, exec (.inc r) s = .next t ∧ (t.reg i).toNat = ((s.reg i).toNat + 1) % 256 ∧
      SameOtherRegs i s t ∧ RegisterFrame s t ∧ t.pc.toNat = s.pc.toNat + 2) ∧
  TruncatedFetchFaults .inc

/-- DEC reg (R71): the register's new value, its frame, the register fault and the fetch fault. -/
def Obligations.DecSubtractsOneModulo256 : Prop :=
  (∀ x : Byte, encode .standard (.dec x) = [0x02, x]) ∧
  (∀ (s : State) (r : Byte), 8 ≤ r.toNat →
    exec (.dec r) s = .next { s with status := .faulted .invalidRegister }) ∧
  (∀ (s : State) (r : Byte) (i : RegIdx), r.toNat = i.val → s.pc.toNat ≤ 256 →
    ∃ t, exec (.dec r) s = .next t ∧ ((t.reg i).toNat : Int) = (((s.reg i).toNat : Int) - 1) % 256 ∧
      SameOtherRegs i s t ∧ RegisterFrame s t ∧ t.pc.toNat = s.pc.toNat + 2) ∧
  TruncatedFetchFaults .dec

/-- ADD dst, src (R72): the destination's new value, its frame, the register faults and the fetch fault. -/
def Obligations.AddWritesSumModulo256 : Prop :=
  (∀ x y : Byte, encode .standard (.add x y) = [0x05, x, y]) ∧
  (∀ (s : State) (r1 r2 : Byte), 8 ≤ r1.toNat ∨ 8 ≤ r2.toNat →
    exec (.add r1 r2) s = .next { s with status := .faulted .invalidRegister }) ∧
  (∀ (s : State) (r1 r2 : Byte) (i j : RegIdx), r1.toNat = i.val → r2.toNat = j.val → s.pc.toNat ≤ 256 →
    ∃ t, exec (.add r1 r2) s = .next t ∧ (t.reg i).toNat = ((s.reg i).toNat + (s.reg j).toNat) % 256 ∧
      SameOtherRegs i s t ∧ RegisterFrame s t ∧ t.pc.toNat = s.pc.toNat + 3) ∧
  TruncatedFetchFaults .add

/-- SUB dst, src (R73): the destination's new value, its frame, the register faults and the fetch fault. -/
def Obligations.SubWritesDifferenceModulo256 : Prop :=
  (∀ x y : Byte, encode .standard (.sub x y) = [0x06, x, y]) ∧
  (∀ (s : State) (r1 r2 : Byte), 8 ≤ r1.toNat ∨ 8 ≤ r2.toNat →
    exec (.sub r1 r2) s = .next { s with status := .faulted .invalidRegister }) ∧
  (∀ (s : State) (r1 r2 : Byte) (i j : RegIdx), r1.toNat = i.val → r2.toNat = j.val → s.pc.toNat ≤ 256 →
    ∃ t, exec (.sub r1 r2) s = .next t ∧ ((t.reg i).toNat : Int) = (((s.reg i).toNat : Int) - (s.reg j).toNat) % 256 ∧
      SameOtherRegs i s t ∧ RegisterFrame s t ∧ t.pc.toNat = s.pc.toNat + 3) ∧
  TruncatedFetchFaults .sub

/-- MUL dst, src (R74): the destination's new value, its frame, the register faults and the fetch fault. -/
def Obligations.MulWritesLowByteOfProduct : Prop :=
  (∀ x y : Byte, encode .standard (.mul x y) = [0x07, x, y]) ∧
  (∀ (s : State) (r1 r2 : Byte), 8 ≤ r1.toNat ∨ 8 ≤ r2.toNat →
    exec (.mul r1 r2) s = .next { s with status := .faulted .invalidRegister }) ∧
  (∀ (s : State) (r1 r2 : Byte) (i j : RegIdx), r1.toNat = i.val → r2.toNat = j.val → s.pc.toNat ≤ 256 →
    ∃ t, exec (.mul r1 r2) s = .next t ∧ (t.reg i).toNat = ((s.reg i).toNat * (s.reg j).toNat) % 256 ∧
      SameOtherRegs i s t ∧ RegisterFrame s t ∧ t.pc.toNat = s.pc.toNat + 3) ∧
  TruncatedFetchFaults .mul

/-- DIV dst, src (R75): the destination's new value, its frame, the register faults and the fetch fault. -/
def Obligations.DivWritesFloorOrFaultsOnZero : Prop :=
  (∀ x y : Byte, encode .standard (.div x y) = [0x08, x, y]) ∧
  (∀ (s : State) (r1 r2 : Byte), 8 ≤ r1.toNat ∨ 8 ≤ r2.toNat →
    exec (.div r1 r2) s = .next { s with status := .faulted .invalidRegister }) ∧
  (∀ (s : State) (r1 r2 : Byte) (i j : RegIdx), r1.toNat = i.val → r2.toNat = j.val → s.reg j = 0 →
    exec (.div r1 r2) s = .next { s with status := .faulted .divisionByZero }) ∧
  (∀ (s : State) (r1 r2 : Byte) (i j : RegIdx), r1.toNat = i.val → r2.toNat = j.val → s.reg j ≠ 0 → s.pc.toNat ≤ 256 →
    ∃ t, exec (.div r1 r2) s = .next t ∧ (t.reg i).toNat = (s.reg i).toNat / (s.reg j).toNat ∧
      SameOtherRegs i s t ∧ RegisterFrame s t ∧ t.pc.toNat = s.pc.toNat + 3) ∧
  TruncatedFetchFaults .div

/-- MOV reg, imm (R80): any immediate, never checked as a register. -/
def Obligations.MovImmediateWritesTheByte : Prop :=
  (∀ x y : Byte, encode .standard (.movRI x y) = [0x03, x, y]) ∧
  (∀ (s : State) (r x : Byte), 8 ≤ r.toNat →
    exec (.movRI r x) s = .next { s with status := .faulted .invalidRegister }) ∧
  (∀ (s : State) (r imm : Byte) (i : RegIdx), r.toNat = i.val → s.pc.toNat ≤ 256 →
    ∃ t, exec (.movRI r imm) s = .next t ∧ t.reg i = imm ∧ SameOtherRegs i s t ∧ RegisterFrame s t ∧
      t.pc.toNat = s.pc.toNat + 3) ∧
  TruncatedFetchFaults .movRI

/-- MOV dst, src (R81): the destination's new value, its frame, the register faults and the fetch fault. -/
def Obligations.MovRegisterCopiesTheSource : Prop :=
  (∀ x y : Byte, encode .standard (.movRR x y) = [0x04, x, y]) ∧
  (∀ (s : State) (r1 r2 : Byte), 8 ≤ r1.toNat ∨ 8 ≤ r2.toNat →
    exec (.movRR r1 r2) s = .next { s with status := .faulted .invalidRegister }) ∧
  (∀ (s : State) (r1 r2 : Byte) (i j : RegIdx), r1.toNat = i.val → r2.toNat = j.val → s.pc.toNat ≤ 256 →
    ∃ t, exec (.movRR r1 r2) s = .next t ∧ t.reg i = s.reg j ∧
      SameOtherRegs i s t ∧ RegisterFrame s t ∧ t.pc.toNat = s.pc.toNat + 3) ∧
  TruncatedFetchFaults .movRR

/-- LOAD reg, addr (R82): the byte read, the frame, and every fault. -/
def Obligations.LoadReadsTheDirectAddress : Prop :=
  (∀ x y : Byte, encode .standard (.load x y) = [0x09, x, y]) ∧
  (∀ (s : State) (r x : Byte), 8 ≤ r.toNat →
    exec (.load r x) s = .next { s with status := .faulted .invalidRegister }) ∧
  (∀ (s : State) (r addr : Byte) (i : RegIdx), r.toNat = i.val → s.cfg.memSize ≤ directAddress addr →
    exec (.load r addr) s = .next { s with status := .faulted .outOfBounds }) ∧
  (∀ (s : State) (r addr : Byte) (i : RegIdx), r.toNat = i.val → directAddress addr < s.cfg.memSize → s.pc.toNat ≤ 256 →
    ∃ t, exec (.load r addr) s = .next t ∧ t.reg i = s.mem.read (directAddress addr) ∧
      SameOtherRegs i s t ∧ RegisterFrame s t ∧ t.pc.toNat = s.pc.toNat + 3) ∧
  TruncatedFetchFaults .load

/-- LDXI reg, reg(addr) (R84): the byte read, the frame, and every fault. -/
def Obligations.LdxiReadsTheAddressInARegister : Prop :=
  (∀ x y : Byte, encode .standard (.ldxi x y) = [0x0B, x, y]) ∧
  (∀ (s : State) (r1 r2 : Byte), 8 ≤ r1.toNat ∨ 8 ≤ r2.toNat →
    exec (.ldxi r1 r2) s = .next { s with status := .faulted .invalidRegister }) ∧
  (∀ (s : State) (r1 r2 : Byte) (i j : RegIdx), r1.toNat = i.val → r2.toNat = j.val → s.cfg.memSize ≤ s.indirectAddress j →
    exec (.ldxi r1 r2) s = .next { s with status := .faulted .outOfBounds }) ∧
  (∀ (s : State) (r1 r2 : Byte) (i j : RegIdx), r1.toNat = i.val → r2.toNat = j.val → s.indirectAddress j < s.cfg.memSize → s.pc.toNat ≤ 256 →
    ∃ t, exec (.ldxi r1 r2) s = .next t ∧ t.reg i = s.mem.read (s.indirectAddress j) ∧
      SameOtherRegs i s t ∧ RegisterFrame s t ∧ t.pc.toNat = s.pc.toNat + 3) ∧
  TruncatedFetchFaults .ldxi

/-- STORE reg, addr (R83): the byte stored, at the address the meaning computes; every other byte and all else unchanged; every fault.
The premise that the memory list is canonical is a clause of the invariant (StepKeepsInvariant). -/
def Obligations.StoreWritesTheDirectAddress : Prop :=
  (∀ x y : Byte, encode .standard (.store x y) = [0x0A, x, y]) ∧
  (∀ (s : State) (r x : Byte), 8 ≤ r.toNat →
    exec (.store r x) s = .next { s with status := .faulted .invalidRegister }) ∧
  (∀ (s : State) (r addr : Byte) (i : RegIdx), r.toNat = i.val → s.cfg.memSize ≤ directAddress addr →
    exec (.store r addr) s = .next { s with status := .faulted .outOfBounds }) ∧
  (∀ (s : State) (r addr : Byte) (i : RegIdx), r.toNat = i.val → directAddress addr < s.cfg.memSize →
    s.mem.wf = true → s.pc.toNat ≤ 256 →
    ∃ t, exec (.store r addr) s = .next t ∧ t.mem.read (directAddress addr) = s.reg i ∧
      SameMemBut (directAddress addr) s t ∧ SameRegs s t ∧ t.flags = s.flags ∧ t.sp = s.sp ∧ t.out = s.out ∧
      CompletedStep s t ∧ t.pc.toNat = s.pc.toNat + 3) ∧
  TruncatedFetchFaults .store

/-- STXI reg, reg(addr) (R85): the byte stored, at the address the meaning computes; every other byte and all else unchanged; every fault.
The premise that the memory list is canonical is a clause of the invariant (StepKeepsInvariant). -/
def Obligations.StxiWritesTheAddressInARegister : Prop :=
  (∀ x y : Byte, encode .standard (.stxi x y) = [0x0C, x, y]) ∧
  (∀ (s : State) (r1 r2 : Byte), 8 ≤ r1.toNat ∨ 8 ≤ r2.toNat →
    exec (.stxi r1 r2) s = .next { s with status := .faulted .invalidRegister }) ∧
  (∀ (s : State) (r1 r2 : Byte) (i j : RegIdx), r1.toNat = i.val → r2.toNat = j.val → s.cfg.memSize ≤ s.indirectAddress j →
    exec (.stxi r1 r2) s = .next { s with status := .faulted .outOfBounds }) ∧
  (∀ (s : State) (r1 r2 : Byte) (i j : RegIdx), r1.toNat = i.val → r2.toNat = j.val → s.indirectAddress j < s.cfg.memSize →
    s.mem.wf = true → s.pc.toNat ≤ 256 →
    ∃ t, exec (.stxi r1 r2) s = .next t ∧ t.mem.read (s.indirectAddress j) = s.reg i ∧
      SameMemBut (s.indirectAddress j) s t ∧ SameRegs s t ∧ t.flags = s.flags ∧ t.sp = s.sp ∧ t.out = s.out ∧
      CompletedStep s t ∧ t.pc.toNat = s.pc.toNat + 3) ∧
  TruncatedFetchFaults .stxi

/-- CMP r1, r2 (R90): both flags, unsigned, and the frame. -/
def Obligations.CompareWritesBothFlags : Prop :=
  (∀ x y : Byte, encode .standard (.cmp x y) = [0x0D, x, y]) ∧
  (∀ (s : State) (r1 r2 : Byte), 8 ≤ r1.toNat ∨ 8 ≤ r2.toNat →
    exec (.cmp r1 r2) s = .next { s with status := .faulted .invalidRegister }) ∧
  (∀ (s : State) (r1 r2 : Byte) (i j : RegIdx), r1.toNat = i.val → r2.toNat = j.val → s.pc.toNat ≤ 256 →
    ∃ t, exec (.cmp r1 r2) s = .next t ∧ (t.flags.zero = true ↔ (s.reg i).toNat = (s.reg j).toNat) ∧
      (t.flags.greater = true ↔ (s.reg j).toNat < (s.reg i).toNat) ∧ SameRegs s t ∧ t.sp = s.sp ∧ SameMem s t ∧
      t.out = s.out ∧ CompletedStep s t ∧ t.pc.toNat = s.pc.toNat + 3) ∧
  TruncatedFetchFaults .cmp

/-- JMP addr (R91): the target is the address byte, unchecked; nothing else changes. -/
def Obligations.JmpGoesToTheAddress : Prop :=
  (∀ x : Byte, encode .standard (.jmp x) = [0x0E, x]) ∧
  (∀ (s : State) (a : Byte), ∃ t, exec (.jmp a) s = .next t ∧ t.pc.toNat = a.toNat ∧ ControlFrame s t) ∧
  TruncatedFetchFaults .jmp

/-- JEQ addr (R92): taken exactly when Z; nothing else changes, the flags included. -/
def Obligations.JeqJumpsWhenZ : Prop :=
  (∀ x : Byte, encode .standard (.jeq x) = [0x0F, x]) ∧
  (∀ (s : State) (a : Byte), s.pc.toNat ≤ 256 →
    ∃ t, exec (.jeq a) s = .next t ∧ t.pc.toNat = (if s.flags.zero = true then a.toNat else s.pc.toNat + 2) ∧
      ControlFrame s t) ∧
  TruncatedFetchFaults .jeq

/-- JNE addr (R93): taken exactly when not Z; nothing else changes, the flags included. -/
def Obligations.JneJumpsWhenNotZ : Prop :=
  (∀ x : Byte, encode .standard (.jne x) = [0x10, x]) ∧
  (∀ (s : State) (a : Byte), s.pc.toNat ≤ 256 →
    ∃ t, exec (.jne a) s = .next t ∧ t.pc.toNat = (if s.flags.zero = false then a.toNat else s.pc.toNat + 2) ∧
      ControlFrame s t) ∧
  TruncatedFetchFaults .jne

/-- JGT addr (R94): taken exactly when G; nothing else changes, the flags included. -/
def Obligations.JgtJumpsWhenG : Prop :=
  (∀ x : Byte, encode .standard (.jgt x) = [0x11, x]) ∧
  (∀ (s : State) (a : Byte), s.pc.toNat ≤ 256 →
    ∃ t, exec (.jgt a) s = .next t ∧ t.pc.toNat = (if s.flags.greater = true then a.toNat else s.pc.toNat + 2) ∧
      ControlFrame s t) ∧
  TruncatedFetchFaults .jgt

/-- JLT addr (R95): taken exactly when not Z and not G; nothing else changes, the flags included. -/
def Obligations.JltJumpsWhenNeitherFlag : Prop :=
  (∀ x : Byte, encode .standard (.jlt x) = [0x12, x]) ∧
  (∀ (s : State) (a : Byte), s.pc.toNat ≤ 256 →
    ∃ t, exec (.jlt a) s = .next t ∧ t.pc.toNat = (if s.flags.zero = false ∧ s.flags.greater = false then a.toNat else s.pc.toNat + 2) ∧
      ControlFrame s t) ∧
  TruncatedFetchFaults .jlt

/-- JLE addr (R96): taken exactly when not G; nothing else changes, the flags included. -/
def Obligations.JleJumpsWhenNotG : Prop :=
  (∀ x : Byte, encode .standard (.jle x) = [0x13, x]) ∧
  (∀ (s : State) (a : Byte), s.pc.toNat ≤ 256 →
    ∃ t, exec (.jle a) s = .next t ∧ t.pc.toNat = (if s.flags.greater = false then a.toNat else s.pc.toNat + 2) ∧
      ControlFrame s t) ∧
  TruncatedFetchFaults .jle

/-- JGE addr (R97): taken exactly when Z or G; nothing else changes, the flags included. -/
def Obligations.JgeJumpsWhenEitherFlag : Prop :=
  (∀ x : Byte, encode .standard (.jge x) = [0x14, x]) ∧
  (∀ (s : State) (a : Byte), s.pc.toNat ≤ 256 →
    ∃ t, exec (.jge a) s = .next t ∧ t.pc.toNat = (if s.flags.zero = true ∨ s.flags.greater = true then a.toNat else s.pc.toNat + 2) ∧
      ControlFrame s t) ∧
  TruncatedFetchFaults .jge

/-- PUSH reg (R100). Inv is the model's invariant (StepKeepsInvariant): it rules out states no run reaches. -/
def Obligations.PushStoresBelowAndMovesDown : Prop :=
  (∀ x : Byte, encode .standard (.push x) = [0x15, x]) ∧
  (∀ (s : State) (r : Byte), 8 ≤ r.toNat →
    exec (.push r) s = .next { s with status := .faulted .invalidRegister }) ∧
  (∀ (s : State) (r : Byte) (i : RegIdx), r.toNat = i.val → s.sp.toNat = s.cfg.stackLow →
    exec (.push r) s = .next { s with status := .faulted .stackOverflow }) ∧
  (∀ (s : State) (r : Byte) (i : RegIdx), s.Inv → r.toNat = i.val → s.sp.toNat ≠ s.cfg.stackLow →
    ∃ t, exec (.push r) s = .next t ∧ t.mem.read s.sp.toNat = s.reg i ∧ SameMemBut s.sp.toNat s t ∧
      t.sp.toNat + 1 = s.sp.toNat ∧ SameRegs s t ∧ t.flags = s.flags ∧ t.out = s.out ∧ CompletedStep s t ∧
      t.pc.toNat = s.pc.toNat + 2) ∧
  TruncatedFetchFaults .push

/-- POP reg (R101). Inv is the model's invariant (StepKeepsInvariant): it rules out states no run reaches. -/
def Obligations.PopReadsAboveAndMovesUp : Prop :=
  (∀ x : Byte, encode .standard (.pop x) = [0x16, x]) ∧
  (∀ (s : State) (r : Byte), 8 ≤ r.toNat →
    exec (.pop r) s = .next { s with status := .faulted .invalidRegister }) ∧
  (∀ (s : State) (r : Byte) (i : RegIdx), r.toNat = i.val → s.sp.toNat = s.cfg.memSize - 1 →
    exec (.pop r) s = .next { s with status := .faulted .stackUnderflow }) ∧
  (∀ (s : State) (r : Byte) (i : RegIdx), s.Inv → r.toNat = i.val → s.sp.toNat ≠ s.cfg.memSize - 1 →
    ∃ t, exec (.pop r) s = .next t ∧ t.sp.toNat = s.sp.toNat + 1 ∧ t.reg i = s.mem.read (s.sp.toNat + 1) ∧
      SameOtherRegs i s t ∧ SameMem s t ∧ t.flags = s.flags ∧ t.out = s.out ∧ CompletedStep s t ∧
      t.pc.toNat = s.pc.toNat + 2) ∧
  TruncatedFetchFaults .pop

/-- CALL addr (R102): StackOverflow first, then OutOfBounds when the return address exceeds a byte. Inv is the model's invariant (StepKeepsInvariant): it rules out states no run reaches. -/
def Obligations.CallPushesTheReturnAddress : Prop :=
  (∀ x : Byte, encode .standard (.call x) = [0x17, x]) ∧
  (∀ (s : State) (a : Byte), s.sp.toNat = s.cfg.stackLow →
    exec (.call a) s = .next { s with status := .faulted .stackOverflow }) ∧
  (∀ (s : State) (a : Byte), s.sp.toNat ≠ s.cfg.stackLow → 255 < s.pc.toNat + 2 →
    exec (.call a) s = .next { s with status := .faulted .outOfBounds }) ∧
  (∀ (s : State) (a : Byte), s.Inv → s.sp.toNat ≠ s.cfg.stackLow → s.pc.toNat + 2 ≤ 255 →
    ∃ t, exec (.call a) s = .next t ∧ (t.mem.read s.sp.toNat).toNat = s.pc.toNat + 2 ∧ SameMemBut s.sp.toNat s t ∧
      t.sp.toNat + 1 = s.sp.toNat ∧ t.pc.toNat = a.toNat ∧ SameRegs s t ∧ t.flags = s.flags ∧ t.out = s.out ∧
      CompletedStep s t) ∧
  TruncatedFetchFaults .call

/-- RET (R103): the byte on top of the stack, whoever pushed it. Inv is the model's invariant (StepKeepsInvariant): it rules out states no run reaches. -/
def Obligations.RetPopsTheProgramCounter : Prop :=
  (encode .standard (.ret) = [0x18]) ∧
  (∀ s : State, s.sp.toNat = s.cfg.memSize - 1 →
    exec .ret s = .next { s with status := .faulted .stackUnderflow }) ∧
  (∀ s : State, s.Inv → s.sp.toNat ≠ s.cfg.memSize - 1 →
    ∃ t, exec .ret s = .next t ∧ t.sp.toNat = s.sp.toNat + 1 ∧
      t.pc.toNat = (s.mem.read (s.sp.toNat + 1)).toNat ∧ SameRegs s t ∧ SameMem s t ∧ t.flags = s.flags ∧
      t.out = s.out ∧ CompletedStep s t) ∧
  OneByteFetchRuns .ret

/-- OUT reg (R110): one byte appended to the output, nothing else. -/
def Obligations.OutAppendsTheRegister : Prop :=
  (∀ x : Byte, encode .standard (.out x) = [0x19, x]) ∧
  (∀ (s : State) (r : Byte), 8 ≤ r.toNat →
    exec (.out r) s = .next { s with status := .faulted .invalidRegister }) ∧
  (∀ (s : State) (r : Byte) (i : RegIdx), r.toNat = i.val → s.pc.toNat ≤ 256 →
    ∃ t, exec (.out r) s = .next t ∧ t.out = s.out ++ [s.reg i] ∧ SameRegs s t ∧ t.flags = s.flags ∧ t.sp = s.sp ∧
      SameMem s t ∧ CompletedStep s t ∧ t.pc.toNat = s.pc.toNat + 2) ∧
  TruncatedFetchFaults .out

/-- HLT (R111): the run ends, nothing is lost. The program counter after HLT is left out, as D12 asks of a model that shows it. -/
def Obligations.HltEndsTheRun : Prop :=
  (encode .standard (.hlt) = [0x1A]) ∧
  (∀ s : State, ∃ t, exec .hlt s = .next t ∧ t.status = .halted ∧ t.steps = s.steps + 1 ∧ SameRegs s t ∧
    t.flags = s.flags ∧ t.sp = s.sp ∧ SameMem s t ∧ t.out = s.out ∧ t.cfg = s.cfg ∧ t.loaded = s.loaded) ∧
  OneByteFetchRuns .hlt

/-- NOP (R112): pc and the count of steps, nothing else. -/
def Obligations.NopOnlyAdvances : Prop :=
  (encode .standard (.nop) = [0x1B]) ∧
  (∀ s : State, s.pc.toNat ≤ 256 →
    ∃ t, exec .nop s = .next t ∧ t.pc.toNat = s.pc.toNat + 1 ∧ ControlFrame s t) ∧
  OneByteFetchRuns .nop

/-- R55, each check before the next: pc in memory, the opcode known, the operand bytes in memory; then the instruction runs. -/
def Obligations.FetchChecksComeInOrder : Prop :=
  ∀ s : State, s.AboutToFetch → s.cfg.wf = true →
    (s.cfg.memSize ≤ s.pc.toNat → step s = .next { s with status := .faulted .outOfBounds }) ∧
    (s.pc.toNat < s.cfg.memSize → (∀ k, s.cfg.opcodeMap.byteOf k ≠ s.mem.read s.pc.toNat) →
      step s = .next { s with status := .faulted .unknownOpcode }) ∧
    ∀ k, s.pc.toNat < s.cfg.memSize → s.cfg.opcodeMap.byteOf k = s.mem.read s.pc.toNat →
      step s =
        if s.cfg.memSize - 1 < s.pc.toNat + k.operandCount then .next { s with status := .faulted .outOfBounds }
        else exec (k.instr (s.mem.read (s.pc.toNat + 1)) (s.mem.read (s.pc.toNat + 2))) s

/-- A step runs what the decoder reads at pc (R20); exec makes the whole effect, the advance of pc and the count of steps included. -/
def Obligations.StepRunsTheDecodedInstruction : Prop :=
  ∀ (s : State) (i : Instr) (rest : List Byte), s.AboutToFetch →
    decode s.cfg.opcodeMap s.window = .ok (i, rest) → step s = exec i s

/-- The bytes of an instruction in memory at pc, under any injective map, make the step that instruction's (R20, R50). -/
def Obligations.TheBytesOfAnInstructionRunIt : Prop :=
  ∀ (s : State) (i : Instr), s.AboutToFetch → s.cfg.wf = true →
    s.pc.toNat + (encode s.cfg.opcodeMap i).length ≤ s.cfg.memSize →
    (∀ n (h : n < (encode s.cfg.opcodeMap i).length),
      s.mem.read (s.pc.toNat + n) = (encode s.cfg.opcodeMap i)[n]) →
    step s = exec i s

/-- Words written out from R52 and R56, one of each format (a sanity statement). -/
def Obligations.WrittenWordsDecode : Prop :=
  decode .standard [0x18] = .ok (.ret, []) ∧
  decode .standard [0x15, 0x07] = .ok (.push 7, []) ∧
  decode .standard [0x10, 0x30, 0x1A] = .ok (.jne 0x30, [0x1A]) ∧
  decode .standard [0x06, 0x02, 0x03] = .ok (.sub 2 3, []) ∧
  decode .standard [0x03, 0x00, 0xFF] = .ok (.movRI 0 0xFF, []) ∧
  decode .standard [0x0A, 0x01, 0x50] = .ok (.store 1 0x50, [])

/-- For EVERY injective opcode map and every instruction, whatever its operand bytes, with any bytes after it. -/
def Obligations.DecodeOfEncodeIsTheInstruction : Prop :=
  ∀ (m : OpcodeMap) (i : Instr) (rest : List Byte), m.wf = true →
    decode m (encode m i ++ rest) = .ok (i, rest)

/-- The other direction: a word has one meaning, and it is the word that is encoded (R51, R58). -/
def Obligations.EncodeOfDecodedIsTheBytes : Prop :=
  ∀ (m : OpcodeMap) (bytes rest : List Byte) (i : Instr), decode m bytes = .ok (i, rest) →
    bytes = encode m i ++ rest ∧ (encode m i).length = i.opcode.length

/-- R57: an unassigned byte is refused by name and raises UnknownOpcode; under the default map these are 0x00 and 0x1C to 0xFF. -/
def Obligations.UnassignedOpcodesAreUnknown : Prop :=
  (∀ (m : OpcodeMap) (b : Byte) (rest : List Byte), (∀ k, m.byteOf k ≠ b) →
    decode m (b :: rest) = .error .unknownOpcode) ∧
  (∀ s : State, s.AboutToFetch → s.pc.toNat < s.cfg.memSize →
    (∀ k, s.cfg.opcodeMap.byteOf k ≠ s.mem.read s.pc.toNat) →
    step s = .next { s with status := .faulted .unknownOpcode }) ∧
  (∀ b : Byte, (∀ k, OpcodeMap.standard.byteOf k ≠ b) ↔ b = 0 ∨ 0x1C ≤ b.toNat)

/-- R22, on the model's own invariant: R22's clauses, R4's ranges, and that the memory list is canonical and lies below MEM_SIZE. The canonical form is the model's own representation (log 2); that a step at a terminal status answers the same state is the model's too (log 5). It holds after reset with any configuration, is kept by a load (R181), and by every step of any program. -/
def Obligations.StepKeepsInvariant : Prop :=
  (∀ (c : Config) (s : State), construct c = .next s → s.Inv) ∧
  (∀ (bytes : List Byte) (s t : State), s.Inv → loadProgram bytes s = .next t → t.Inv) ∧
  (∀ s t : State, s.Inv → step s = .next t →
    t.Inv ∧ s.out <+: t.out ∧ (s.status.terminal = true → t.status = s.status))

/-- The state after reset with the default parameters has the invariant (its canonical memory form is the model's own, log 2). -/
def Obligations.ResetMeetsInvariant : Prop :=
  State.reset.Inv

/-- R23, R180: reset with every admitted configuration, and the refusal of the others. R180 refuses a MEM_SIZE or STACK_LOW out of range; that a map which gives two instructions one byte is refused too is the model's reading of R4 and R56 (log 1). -/
def Obligations.ResetPutsEveryFieldAtItsValue : Prop :=
  (∀ c : Config, c.wf = true →
    ∃ s, construct c = .next s ∧ s.cfg = c ∧ (∀ i, s.reg i = 0) ∧ (∀ a, s.mem.read a = 0) ∧ s.pc = 0 ∧
      s.sp.toNat = c.memSize - 1 ∧ s.flags.zero = false ∧ s.flags.greater = false ∧ s.status = .ready ∧
      s.out = [] ∧ s.steps = 0) ∧
  (∀ c : Config, c.memSize < 1 ∨ 256 < c.memSize ∨ c.memSize - 1 < c.stackLow →
    construct c = .refused .badConfiguration) ∧
  (∀ (c : Config) (j k : Opcode), j ≠ k → c.opcodeMap.byteOf j = c.opcodeMap.byteOf k →
    construct c = .refused .badConfiguration)

/-- R153: a fault changes the status alone, for every instruction and for the step that fetches it. -/
def Obligations.FaultsArePrecise : Prop :=
  (∀ (i : Instr) (s t : State) (k : Fault), s.FaultFree → exec i s = .next t → t.status = .faulted k →
    t = { s with status := .faulted k }) ∧
  (∀ (s t : State) (k : Fault), s.FaultFree → step s = .next t → t.status = .faulted k →
    t = { s with status := .faulted k })

/-- R16 says that only reset leaves a terminal status. That the model's step there answers the same state is its choice (log 5; R20 defines a step only while Running), and with it the end of a run (R183) is one state. -/
def Obligations.TerminalStatusesAreFinal : Prop :=
  (∀ (n : Nat) (s : State), s.status.terminal = true → Host.Core.run Sys2Proof.core n s = .next s) ∧
  (∀ s t u : State, EndsRun s t → EndsRun s u → t = u)

/-- R13: no instruction but CMP touches a flag, whatever its result, and reset clears both. -/
def Obligations.OnlyCompareWritesFlags : Prop :=
  ∀ (i : Instr) (s t : State), exec i s = .next t → (∀ x y, i ≠ .cmp x y) → t.flags = s.flags

/-- R11, R53, R154: a register byte of 8 or more raises InvalidRegister before any other condition of the instruction, and nothing else raises it. -/
def Obligations.InvalidRegisterExactlyOnBadBytes : Prop :=
  (∀ (i : Instr) (s : State), i.wf = false → exec i s = .next { s with status := .faulted .invalidRegister }) ∧
  (∀ (i : Instr) (s t : State), i.wf = true → s.FaultFree → exec i s = .next t →
    t.status ≠ .faulted .invalidRegister)

/-- R150's table: which faults an instruction may raise once fetched; with a full-size memory no data access raises OutOfBounds (R33). -/
def Obligations.FaultsFollowTheTable : Prop :=
  ∀ (i : Instr) (s t : State) (k : Fault), s.Inv → s.FaultFree → exec i s = .next t → t.status = .faulted k →
    mayRaise i.opcode k = true ∧ (s.cfg.memSize = 256 → k = .outOfBounds → i.opcode = .call)

/-- R30: only STORE, STXI, PUSH and CALL change memory, each one byte, at the address its meaning computes. -/
def Obligations.MemoryChangesOnlyWhereStored : Prop :=
  ∀ (i : Instr) (s t : State) (a : Nat), exec i s = .next t → t.mem.read a ≠ s.mem.read a →
    storeAddress i s = some a

/-- The canonical form of memory is the model's own representation of R30's cells (log 2), and it is canonical: memories that read the same everywhere are the same data. -/
def Obligations.CanonicalMemoriesAreTheirBytes : Prop :=
  ∀ m n : Memory, m.wf = true → n.wf = true → (∀ a, m.read a = n.read a) → m = n

/-- R182: Ready starts the run (that the model's first step does so is its choice, log 4); the limit is tested before each fetch. -/
def Obligations.RunLoopFollowsItsRule : Prop :=
  (∀ s : State, s.status = .ready → step s = .next { s with status := .running }) ∧
  (∀ s : State, s.status = .running → s.cfg.stepLimit = some s.steps →
    step s = .next { s with status := .stepLimit }) ∧
  (∀ s : State, s.status = .running → s.cfg.stepLimit ≠ some s.steps → step s = runInstruction s)

/-- R99: the target is not checked when the jump executes; the next step faults with pc holding the target. -/
def Obligations.AJumpBeyondMemoryFaultsAtTheNextFetch : Prop :=
  ∀ (s : State) (a : Byte), s.AboutToFetch → s.cfg.wf = true → s.pc.toNat + 1 < s.cfg.memSize →
    s.mem.read s.pc.toNat = s.cfg.opcodeMap.byteOf .jmp → s.mem.read (s.pc.toNat + 1) = a →
    s.cfg.memSize ≤ a.toNat → s.cfg.stepLimit ≠ some (s.steps + 1) →
    ∃ t, step s = .next t ∧ t.status = .running ∧ t.pc.toNat = a.toNat ∧
      step t = .next { t with status := .faulted .outOfBounds }

/-- R103: RET from any state with the stack pointer and the cell as CALL left them resumes after the CALL. -/
def Obligations.CallThenReturnComesBack : Prop :=
  ∀ (s : State) (a : Byte), s.Inv → s.sp.toNat ≠ s.cfg.stackLow → s.pc.toNat + 2 ≤ 255 →
    ∃ t, exec (.call a) s = .next t ∧
      ∀ v : State, v.cfg = t.cfg → v.sp = t.sp → v.mem.read s.sp.toNat = t.mem.read s.sp.toNat →
        ∃ u, exec .ret v = .next u ∧ u.pc.toNat = s.pc.toNat + 2 ∧ u.sp = s.sp

/-- R104: from the empty stack STACK_CAPACITY pushes succeed, filling the cells downward, and the next one faults. -/
def Obligations.ExactlyCapacityPushesSucceed : Prop :=
  ∀ (s : State) (rs : List Byte), s.Inv → s.FaultFree → (∀ r ∈ rs, r.toNat < 8) →
    s.sp.toNat = s.cfg.memSize - 1 → rs.length ≤ s.cfg.stackCapacity →
    ∃ t, pushAll rs s = .next t ∧ t.status = s.status ∧ t.sp.toNat + rs.length = s.cfg.memSize - 1 ∧
      (∀ (n : Nat) (r : Byte) (i : RegIdx), rs[n]? = some r → r.toNat = i.val →
        t.mem.read (s.cfg.memSize - 1 - n) = s.reg i) ∧
      (∀ a, a ≤ t.sp.toNat ∨ s.cfg.memSize ≤ a → t.mem.read a = s.mem.read a) ∧
      (rs.length = s.cfg.stackCapacity → ∀ r : Byte, r.toNat < 8 →
        exec (.push r) t = .next { t with status := .faulted .stackOverflow })

/-- R40: the byte that STORE, STXI, PUSH or CALL wrote is what a later fetch at that address decodes, with the checks of R55. -/
def Obligations.AStoredByteIsFetched : Prop :=
  ∀ s : State, s.Inv →
    (∀ (r a : Byte) (i : RegIdx), r.toNat = i.val → directAddress a < s.cfg.memSize →
      ∃ t, exec (.store r a) s = .next t ∧ FetchSees t (directAddress a) (s.reg i)) ∧
    (∀ (r1 r2 : Byte) (i j : RegIdx), r1.toNat = i.val → r2.toNat = j.val → s.indirectAddress j < s.cfg.memSize →
      ∃ t, exec (.stxi r1 r2) s = .next t ∧ FetchSees t (s.indirectAddress j) (s.reg i)) ∧
    (∀ (r : Byte) (i : RegIdx), r.toNat = i.val → s.sp.toNat ≠ s.cfg.stackLow →
      ∃ t, exec (.push r) s = .next t ∧ FetchSees t s.sp.toNat (s.reg i)) ∧
    (∀ a : Byte, s.sp.toNat ≠ s.cfg.stackLow → s.pc.toNat + 2 ≤ 255 →
      ∃ t, exec (.call a) s = .next t ∧ FetchSees t s.sp.toNat (BitVec.ofNat 8 (s.pc.toNat + 2)))

/-- R181: the load, its one limit, and what it leaves alone. Inv rules out states no run reaches. -/
def Obligations.LoadProgramCopiesTheBytes : Prop :=
  ∀ (s : State) (bytes : List Byte), s.Inv → s.status = .ready → s.loaded = false →
    (s.cfg.memSize < bytes.length → loadProgram bytes s = .fault .outOfBounds) ∧
    (bytes.length ≤ s.cfg.memSize →
      ∃ t, loadProgram bytes s = .next t ∧ (∀ n (h : n < bytes.length), t.mem.read n = bytes[n]) ∧
        (∀ a, bytes.length ≤ a → t.mem.read a = s.mem.read a) ∧ SameRegs s t ∧ t.pc = s.pc ∧ t.sp = s.sp ∧
        t.flags = s.flags ∧ t.status = s.status ∧ t.out = s.out ∧ t.steps = s.steps ∧ t.cfg = s.cfg)

/-- R184, R185, U8: a load or a run outside Ready and a second load are refused. That a failed load does not count as the load is the model's choice (log 6). -/
def Obligations.HostOperationsOutOfTurnAreRefused : Prop :=
  (∀ (s : State) (bytes : List Byte), s.status ≠ .ready →
    loadProgram bytes s = .refused .notReady ∧ startRun s = .refused .notReady) ∧
  (∀ (s : State) (bytes more : List Byte) (t : State), loadProgram bytes s = .next t →
    loadProgram more t = .refused .alreadyLoaded)

/-- R99, R183: a JMP to its own address loops for ever, which only STEP_LIMIT ends. -/
def Obligations.AJumpToItselfNeverEnds : Prop :=
  ∀ s : State, s.Inv → s.status = .running → s.cfg.stepLimit = none → s.pc.toNat + 1 < s.cfg.memSize →
    s.mem.read s.pc.toNat = s.cfg.opcodeMap.byteOf .jmp →
    (s.mem.read (s.pc.toNat + 1)).toNat = s.pc.toNat →
    (∀ n, ∃ t, Host.Core.run Sys2Proof.core n s = .next t ∧ t.status = .running ∧ t.pc = s.pc ∧ t.out = s.out ∧
      t.steps = s.steps + n) ∧ ¬∃ t, EndsRun s t

/-- R182: with STEP_LIMIT = n at most n instructions execute and the run ends. The steps counted by the run include the model's repetitions at a terminal status (log 5). -/
def Obligations.AStepLimitBoundsTheRun : Prop :=
  ∀ (s : State) (n : Nat), s.status = .running → s.cfg.stepLimit = some n → s.steps ≤ n →
    ∃ t, Host.Core.run Sys2Proof.core (n - s.steps + 1) s = .next t ∧ t.status.terminal = true ∧ t.steps ≤ n ∧
      EndsRun s t

/-- Every instruction and every step answers a next state: no refusal and no stop; the parameters never change (R19). R20 defines a step only while Running: that the step answers a state at Ready (log 4) and at a terminal status (log 5), and that a taken fault is a next state (log 3), are the model's choices. -/
def Obligations.EveryStepAnswersAState : Prop :=
  (∀ (i : Instr) (s : State), ∃ t, exec i s = .next t ∧ t.cfg = s.cfg ∧ t.loaded = s.loaded) ∧
  (∀ s : State, ∃ t, step s = .next t ∧ t.cfg = s.cfg ∧ t.loaded = s.loaded)

/-- R18: one more for each completed instruction, HLT included; none for one that faults. -/
def Obligations.StepsCountCompletedInstructions : Prop :=
  ∀ (i : Instr) (s t : State), s.FaultFree → exec i s = .next t →
    (t.FaultFree ∧ t.steps = s.steps + 1) ∨ ((∃ k, t.status = .faulted k) ∧ t.steps = s.steps)

/-- R98: after CMP the six jumps are taken exactly as their names say, unsigned; at reset as after 'less'. -/
def Obligations.ConditionsNameTheComparison : Prop :=
  (∀ (s t : State) (r1 r2 a : Byte) (i j : RegIdx), r1.toNat = i.val → r2.toNat = j.val →
    exec (.cmp r1 r2) s = .next t →
    exec (.jeq a) t = .next (if (s.reg i).toNat = (s.reg j).toNat then t.jump a else t.advance 2) ∧
    exec (.jne a) t = .next (if (s.reg i).toNat ≠ (s.reg j).toNat then t.jump a else t.advance 2) ∧
    exec (.jgt a) t = .next (if (s.reg j).toNat < (s.reg i).toNat then t.jump a else t.advance 2) ∧
    exec (.jlt a) t = .next (if (s.reg i).toNat < (s.reg j).toNat then t.jump a else t.advance 2) ∧
    exec (.jle a) t = .next (if (s.reg i).toNat ≤ (s.reg j).toNat then t.jump a else t.advance 2) ∧
    exec (.jge a) t = .next (if (s.reg j).toNat ≤ (s.reg i).toNat then t.jump a else t.advance 2)) ∧
  (∀ (s : State) (a : Byte), s.flags = ⟨false, false⟩ →
    exec (.jne a) s = .next (s.jump a) ∧ exec (.jlt a) s = .next (s.jump a) ∧ exec (.jle a) s = .next (s.jump a) ∧
    exec (.jeq a) s = .next (s.advance 2) ∧ exec (.jgt a) s = .next (s.advance 2) ∧
    exec (.jge a) s = .next (s.advance 2))

/-- R134: the assembler emits only opcodes of the map and register bytes 0 to 7, and nothing for a source with no instruction. -/
def Obligations.AssembledBytesAreWellFormedCode : Prop :=
  (∀ (m : OpcodeMap) (src : Text) (bytes : List Byte), assemble m src = .ok bytes →
    ∃ is : List Instr, (∀ i ∈ is, i.wf = true) ∧ bytes = is.flatMap (encode m)) ∧
  (∀ (m : OpcodeMap) (src : Text) (bytes : List Byte), (∀ l ∈ sourceLines src, l.body = []) →
    assemble m src = .ok bytes → bytes = [])

/-- R130: the length of the output is the final value of pass 1's counter. -/
def Obligations.AssembledLengthIsTheFinalCounter : Prop :=
  ∀ (m : OpcodeMap) (src : Text) (bytes : List Byte), assemble m src = .ok bytes →
    ∃ labels, pass1 (sourceLines src) [] 0 = .ok (labels, bytes.length)

/-- R128, R131: in the label table a name has the address pass 1 had reached at its definition, and in pass 2 a reference to it, wherever an address operand stands (R127), is that address in one byte, InvalidOperand above 255, UndefinedLabel for a name not in the table. -/
def Obligations.ALabelResolvesToItsAddress : Prop :=
  (∀ (before after : List Line) (l : Line) (name : Text) (labels : LabelTable) (n : Nat), l.label = some name →
    pass1 (before ++ l :: after) [] 0 = .ok (labels, n) →
    ∃ earlier c, pass1 before [] 0 = .ok (earlier, c) ∧ labels.lookup name = some c) ∧
  (∀ (labels : LabelTable) (line : Nat) (mnemonic token reg : Text) (i : RegIdx), legalLabel token = true →
    registerOf reg = some i →
    (∀ c, labels.lookup token = some c → c ≤ 255 →
      (∀ k : Opcode, k.format = .a →
        operandsInstr labels line mnemonic (.op k) [token] = .ok (k.instr (BitVec.ofNat 8 c) 0)) ∧
      (∀ k : Opcode, k.format = .ra →
        operandsInstr labels line mnemonic (.op k) [reg, token] =
          .ok (k.instr (BitVec.ofNat 8 i.val) (BitVec.ofNat 8 c)))) ∧
    (∀ c, labels.lookup token = some c → 255 < c →
      (∀ k : Opcode, k.format = .a →
        operandsInstr labels line mnemonic (.op k) [token] = .error ⟨.invalidOperand, line, token⟩) ∧
      (∀ k : Opcode, k.format = .ra →
        operandsInstr labels line mnemonic (.op k) [reg, token] = .error ⟨.invalidOperand, line, token⟩)) ∧
    (labels.lookup token = none →
      (∀ k : Opcode, k.format = .a →
        operandsInstr labels line mnemonic (.op k) [token] = .error ⟨.undefinedLabel, line, token⟩) ∧
      (∀ k : Opcode, k.format = .ra →
        operandsInstr labels line mnemonic (.op k) [reg, token] = .error ⟨.undefinedLabel, line, token⟩)))

/-- The text of any well-formed program assembles to its encoding, under every map (R120, R130): the assembler's lexer, operand parser, both passes and the encoder agree. The text is in the model's own listing format (its choice, log 14) and uses the 26 spellings that R124 lists (log 10). -/
def Obligations.AListingAssemblesBack : Prop :=
  ∀ (m : OpcodeMap) (is : List Instr), (∀ i ∈ is, i.wf = true) →
    assemble m (listing is) = .ok (is.flatMap (encode m))
end

