-- ==== Sys2Proof/Laws/Decode.lean ====
section
/-!
SUPPORT. The laws of the opcode map's lookup and of the operand split, which the decoder's statements rest on.
-/

namespace Sys2Proof

theorem Opcode.mem_all (k : Opcode) : k ∈ Opcode.all := by cases k <;> decide

/-- An injective map assigns different bytes to different opcodes. -/
theorem OpcodeMap.byteOf_injective (m : OpcodeMap) (h : m.wf = true) {j k : Opcode}
    (e : m.byteOf j = m.byteOf k) : j = k :=
  List.inj_on_of_nodup_map (of_decide_eq_true h) (Opcode.mem_all j) (Opcode.mem_all k) e

/-- What the lookup finds is assigned the byte. -/
theorem OpcodeMap.byteOf_of_find (m : OpcodeMap) {b : Byte} {k : Opcode} (h : m.find b = some k) :
    m.byteOf k = b := by
  simpa using List.find?_some h

/-- The lookup finds every opcode under its byte. -/
theorem OpcodeMap.find_byteOf (m : OpcodeMap) (h : m.wf = true) (k : Opcode) : m.find (m.byteOf k) = some k := by
  cases e : m.find (m.byteOf k) with
  | none => simpa using List.find?_eq_none.mp e k (Opcode.mem_all k)
  | some j => rw [m.byteOf_injective h (m.byteOf_of_find e)]

/-- The lookup finds nothing exactly under the bytes that are assigned to nothing. -/
theorem OpcodeMap.find_eq_none (m : OpcodeMap) (b : Byte) : m.find b = none ↔ ∀ k, m.byteOf k ≠ b := by
  simp [OpcodeMap.find, List.find?_eq_none, Opcode.mem_all]

/-- An opcode and operand bytes make an instruction of that opcode. -/
@[simp] theorem Opcode.instr_opcode (k : Opcode) (x y : Byte) : (k.instr x y).opcode = k := by cases k <;> rfl

/-- An instruction has as many operand bytes as its opcode says. -/
@[simp] theorem Instr.operands_length (i : Instr) : i.operands.length = i.opcode.operandCount := by
  cases i <;> rfl

/-- An opcode has 0, 1 or 2 operand bytes. -/
theorem Opcode.operandCount_le (k : Opcode) : k.operandCount ≤ 2 := by cases k <;> decide

/-- An operand the format lacks is ignored. -/
theorem Opcode.instr_none (k : Opcode) (h : k.operandCount = 0) (x y x' y' : Byte) :
    k.instr x y = k.instr x' y' := by
  cases k <;> first | rfl | exact absurd h (by decide)

theorem Opcode.instr_one (k : Opcode) (h : k.operandCount = 1) (x y y' : Byte) : k.instr x y = k.instr x y' := by
  cases k <;> first | rfl | exact absurd h (by decide)

/-- The operand split, by the number of operand bytes. -/
theorem takeOperands_zero (k : Opcode) (h : k.operandCount = 0) (x y : Byte) (rest : List Byte) :
    takeOperands k rest = .ok (k.instr x y, rest) := by
  rw [k.instr_none h x y 0 0]; simp [takeOperands, h]

theorem takeOperands_one (k : Opcode) (h : k.operandCount = 1) (x y : Byte) (rest : List Byte) :
    takeOperands k (x :: rest) = .ok (k.instr x y, rest) := by
  rw [k.instr_one h x y 0]; simp [takeOperands, h]

theorem takeOperands_two (k : Opcode) (h : k.operandCount = 2) (x y : Byte) (rest : List Byte) :
    takeOperands k (x :: y :: rest) = .ok (k.instr x y, rest) := by
  simp [takeOperands, h]

/-- The operand split refuses exactly when operand bytes are missing. -/
theorem takeOperands_truncated (k : Opcode) (rest : List Byte) (h : rest.length < k.operandCount) :
    takeOperands k rest = .error .truncated := by
  have hk := k.operandCount_le
  match rest, h with
  | [], h =>
    obtain hc | hc : k.operandCount = 1 ∨ k.operandCount = 2 := by simp at h; omega
    all_goals simp [takeOperands, hc]
  | [x], h =>
    have hc : k.operandCount = 2 := by simp at h; omega
    simp [takeOperands, hc]
  | x :: y :: rest, h => simp at h; omega

/-- The standard map and the standard configuration are well formed. -/
theorem OpcodeMap.standard_wf : OpcodeMap.standard.wf = true := by decide

theorem Config.standard_wf : Config.standard.wf = true := by decide

/-- What a well-formed configuration says of its fields. -/
theorem Config.wf_iff (c : Config) :
    c.wf = true ↔ 1 ≤ c.memSize ∧ c.memSize ≤ 256 ∧ c.stackLow ≤ c.memSize - 1 ∧ c.opcodeMap.wf = true := by
  simp only [Config.wf, Bool.and_eq_true, decide_eq_true_eq, and_assoc]

end Sys2Proof
end

