-- ==== Sys2Proof/Laws/Assembler.lean ====
section
/-!
SUPPORT. The assembler's operations, once each: what a name is classified as, what an operand position gives, what a
line and a pass can answer. Proofs about whole sources cite these instead of unfolding the passes.
-/

namespace Sys2Proof.Assembler

/-- A computation that answers has answered at each of its two parts. -/
theorem bind_answers {ε α β : Type} {x : Except ε α} {f : α → Except ε β} {b : β} (h : (x >>= f) = .ok b) :
    ∃ a, x = .ok a ∧ f a = .ok b := by
  cases x with
  | error e => cases h
  | ok a => exact ⟨a, rfl, h⟩

@[simp] theorem answer_bind {ε α β : Type} (a : α) (f : α → Except ε β) : (Except.ok a >>= f) = f a := rfl

@[simp] theorem failure_bind {ε α β : Type} (e : ε) (f : α → Except ε β) : (Except.error e >>= f) = .error e := rfl

/-! ### Tokens -/

/-- A letter or underscore is no decimal digit (R123, R126). -/
theorem decimalDigit_nameStart {c : Char} (h : isNameStart c = true) : decimalDigit c = none := by
  have hlt : ¬('0' ≤ c ∧ c ≤ '9') := by
    rintro ⟨h0, h9⟩
    have h0 : '0'.val.toNat ≤ c.val.toNat := h0
    have h9 : c.val.toNat ≤ '9'.val.toNat := h9
    simp only [isNameStart, Char.isAlpha, Char.isUpper, Char.isLower, Bool.or_eq_true, Bool.and_eq_true,
      decide_eq_true_eq, beq_iff_eq, UInt32.le_iff_toNat_le] at h
    rcases h with (⟨ha, _⟩ | ⟨ha, _⟩) | rfl
    · have ha : 'A'.val.toNat ≤ c.val.toNat := ha
      exact absurd (ha.trans h9) (by decide)
    · have ha : 'a'.val.toNat ≤ c.val.toNat := ha
      exact absurd (ha.trans h9) (by decide)
    · exact absurd h9 (by decide)
  rw [decimalDigit, if_neg hlt]

/-- A name is no numeric literal: its first character is no digit (R123, R126). -/
theorem literalOf_isName {t : Text} (h : isName t = true) : literalOf t = none := by
  cases t with
  | nil => cases h
  | cons c rest =>
    have hc : isNameStart c = true := (Bool.and_eq_true _ _ ▸ h : _ ∧ _).1
    have h0 : c ≠ '0' := by rintro rfl; exact absurd hc (by decide)
    have hx : ¬((c :: rest).take 2 = ['0', 'x'] ∨ (c :: rest).take 2 = ['0', 'X']) := by
      rintro (h | h) <;> exact h0 (List.cons.inj h).1
    rw [literalOf, if_neg hx, numberOf, if_neg (List.cons_ne_nil _ _), digitsValue, decimalDigit_nameStart hc]

/-- A legal label name in an operand position is a label reference (R123, R125). -/
theorem classify_legalLabel {t : Text} (h : legalLabel t = true) : classify t = .label t := by
  obtain ⟨hn, hr⟩ : isName t = true ∧ registerOf t = none := by
    simpa only [legalLabel, Bool.and_eq_true, Option.isNone_iff_eq_none] using h
  rw [classify, hr, literalOf_isName hn]
  exact if_pos hn

/-- A register name is a register (R125). -/
theorem classify_register {t : Text} {i : RegIdx} (h : registerOf t = some i) : classify t = .register i := by
  rw [classify, h]

/-! ### Operands -/

/-- A register position that answers gives a byte that names a register (R127). -/
theorem regOperand_wf {line : Nat} {token : Text} {b : Byte} (h : regOperand line token = .ok b) :
    regByteOk b = true := by
  unfold regOperand at h
  split at h
  · rename_i i _
    cases h
    have := i.isLt
    simp only [regByteOk, BitVec.toNat_ofNat, decide_eq_true_eq]
    omega
  · cases h

theorem regOperand_register {line : Nat} {token : Text} {i : RegIdx} (h : registerOf token = some i) :
    regOperand line token = .ok (BitVec.ofNat 8 i.val) := by
  rw [regOperand, classify_register h]

/-- An address position that holds a label reference answers as the table says (R131). -/
theorem addrOperand_label (labels : LabelTable) (line : Nat) {token : Text} (h : legalLabel token = true) :
    addrOperand labels line token =
      (labels.lookup token).elim (.error ⟨.undefinedLabel, line, token⟩) (byteOperand line token) := by
  unfold addrOperand
  rw [classify_legalLabel h]
  cases hl : labels.lookup token <;> simp only [hl, Option.elim]

theorem byteOperand_fits (line : Nat) (token : Text) {n : Nat} (h : n ≤ 255) :
    byteOperand line token n = .ok (BitVec.ofNat 8 n) := if_pos h

theorem byteOperand_exceeds (line : Nat) (token : Text) {n : Nat} (h : 255 < n) :
    byteOperand line token n = .error ⟨.invalidOperand, line, token⟩ := if_neg (by omega)

/-! ### Passes -/

/-- Assembly answers when both passes do, with the encodings laid end to end (R128, R130). -/
theorem assemble_answers {m : OpcodeMap} {src : Text} {bytes : List Byte} (h : assemble m src = .ok bytes) :
    ∃ labels n is, pass1 (sourceLines src) [] 0 = .ok (labels, n) ∧ pass2 labels (sourceLines src) = .ok is ∧
      bytes = is.flatMap (encode m) := by
  unfold assemble at h
  split at h
  · rename_i is hi
    cases h
    obtain ⟨⟨labels, n⟩, h1, h2⟩ := bind_answers hi
    exact ⟨labels, n, is, h1, h2, rfl⟩
  · cases h

/-- Pass 1 over a line and the rest: the definition, the size, then the rest from the counter moved on (R128). -/
theorem pass1_cons_answers {l : Line} {rest : List Line} {labels labels' : LabelTable} {c n : Nat}
    (h : pass1 (l :: rest) labels c = .ok (labels', n)) :
    ∃ more size, defineLabel labels c l = .ok more ∧ lineSize l = .ok size ∧
      pass1 rest more (c + size) = .ok (labels', n) := by
  obtain ⟨more, h1, h⟩ := bind_answers h
  obtain ⟨size, h2, h⟩ := bind_answers h
  exact ⟨more, size, h1, h2, h⟩

/-- Pass 2 over a line and the rest: the line's instructions, then the rest's (R130). -/
theorem pass2_cons_answers {labels : LabelTable} {l : Line} {rest : List Line} {is : List Instr}
    (h : pass2 labels (l :: rest) = .ok is) :
    ∃ first more, lineInstr labels l = .ok first ∧ pass2 labels rest = .ok more ∧ is = first ++ more := by
  obtain ⟨first, h1, h⟩ := bind_answers h
  obtain ⟨more, h2, h⟩ := bind_answers h
  cases h
  exact ⟨first, more, h1, h2, rfl⟩

end Sys2Proof.Assembler
end

