-- ==== Sys2Proof/Laws/Memory.lean ====
section
/-!
SUPPORT. The laws of Memory: a read after a write, the canonical form kept by every operation, and a loaded program.
-/

namespace Sys2Proof.Machine

/-! ### Lists of cells -/

@[simp] theorem readCells_nil (a : Nat) : readCells [] a = unlistedByte := rfl

theorem readCells_cons (b : Nat) (w : Byte) (rest : List Host.Cell) (a : Nat) :
    readCells ((b, w) :: rest) a = if a = b then w else readCells rest a := rfl

theorem readCells_consCell_other (a c : Nat) (v : Byte) (rest : List Host.Cell) (h : c ≠ a) :
    readCells (consCell a v rest) c = readCells rest c := by
  unfold consCell; split
  · rfl
  · simp [readCells_cons, h]

theorem readCells_below (lo a : Nat) (cs : List Host.Cell) (h : cellsRise lo cs = true) (ha : a < lo) :
    readCells cs a = unlistedByte := by
  induction cs generalizing lo with
  | nil => rfl
  | cons c rest ih =>
    obtain ⟨b, w⟩ := c
    simp only [cellsRise, Bool.and_eq_true, decide_eq_true_eq] at h
    rw [readCells_cons, if_neg (by omega), ih (b + 1) h.2 (by omega)]

theorem readCells_consCell_same (a : Nat) (v : Byte) (rest : List Host.Cell)
    (h : cellsRise (a + 1) rest = true) : readCells (consCell a v rest) a = v := by
  unfold consCell; split
  · rename_i e; rw [readCells_below (a + 1) a rest h (by omega), e]
  · simp [readCells_cons]

theorem cellsRise_mono (lo lo' : Nat) (cs : List Host.Cell) (h : cellsRise lo cs = true) (hl : lo' ≤ lo) :
    cellsRise lo' cs = true := by
  cases cs with
  | nil => rfl
  | cons c rest =>
    simp only [cellsRise, Bool.and_eq_true, decide_eq_true_eq] at h ⊢
    exact ⟨⟨by omega, h.1.2⟩, h.2⟩

theorem cellsRise_consCell (lo a : Nat) (v : Byte) (rest : List Host.Cell) (hl : lo ≤ a)
    (h : cellsRise (a + 1) rest = true) : cellsRise lo (consCell a v rest) = true := by
  unfold consCell; split
  · exact cellsRise_mono _ _ _ h (by omega)
  · simp_all [cellsRise]

theorem cellsRise_writeCells (lo a : Nat) (v : Byte) (cs : List Host.Cell) (hl : lo ≤ a)
    (h : cellsRise lo cs = true) : cellsRise lo (writeCells cs a v) = true := by
  induction cs generalizing lo with
  | nil => exact cellsRise_consCell lo a v [] hl rfl
  | cons c rest ih =>
    obtain ⟨b, w⟩ := c
    have h' := h
    simp only [cellsRise, Bool.and_eq_true, decide_eq_true_eq] at h
    unfold writeCells; split
    · refine cellsRise_consCell lo a v _ hl ?_
      simp only [cellsRise, Bool.and_eq_true, decide_eq_true_eq]
      exact ⟨⟨by omega, h.1.2⟩, h.2⟩
    · split
      · subst b; exact cellsRise_consCell lo a v rest hl h.2
      · simp only [cellsRise, Bool.and_eq_true, decide_eq_true_eq]
        exact ⟨h.1, ih (b + 1) (by omega) h.2⟩

theorem readCells_writeCells_same (lo a : Nat) (v : Byte) (cs : List Host.Cell)
    (h : cellsRise lo cs = true) : readCells (writeCells cs a v) a = v := by
  induction cs generalizing lo with
  | nil => exact readCells_consCell_same a v [] rfl
  | cons c rest ih =>
    obtain ⟨b, w⟩ := c
    simp only [cellsRise, Bool.and_eq_true, decide_eq_true_eq] at h
    unfold writeCells; split
    · refine readCells_consCell_same a v _ ?_
      simp only [cellsRise, Bool.and_eq_true, decide_eq_true_eq]
      exact ⟨⟨by omega, h.1.2⟩, h.2⟩
    · split
      · subst b; exact readCells_consCell_same a v rest h.2
      · rw [readCells_cons, if_neg (by assumption), ih (b + 1) h.2]

theorem readCells_writeCells_other (a c : Nat) (v : Byte) (cs : List Host.Cell) (hc : c ≠ a) :
    readCells (writeCells cs a v) c = readCells cs c := by
  induction cs with
  | nil => exact readCells_consCell_other a c v [] hc
  | cons d rest ih =>
    obtain ⟨b, w⟩ := d
    unfold writeCells; split
    · exact readCells_consCell_other a c v _ hc
    · split
      · subst b; rw [readCells_consCell_other a c v rest hc, readCells_cons, if_neg hc]
      · rw [readCells_cons, readCells_cons, ih]

theorem all_writeCells (p : Host.Cell → Bool) (a : Nat) (v : Byte) (cs : List Host.Cell)
    (h : cs.all p = true) (hp : p (a, v) = true) : (writeCells cs a v).all p = true := by
  have hc : ∀ rest : List Host.Cell, rest.all p = true → (consCell a v rest).all p = true := by
    intro rest hr; unfold consCell; split
    · exact hr
    · simp only [List.all_cons, hp, hr, Bool.and_self]
  induction cs with
  | nil => exact hc [] rfl
  | cons d rest ih =>
    obtain ⟨b, w⟩ := d
    have hr : rest.all p = true := by simp only [List.all_cons, Bool.and_eq_true] at h; exact h.2
    have hd : p (b, w) = true := by simp only [List.all_cons, Bool.and_eq_true] at h; exact h.1
    unfold writeCells; split
    · exact hc _ h
    · split
      · exact hc rest hr
      · simp only [List.all_cons, hd, ih hr, Bool.and_self]

/-! ### Memory -/

@[simp] theorem Memory.read_empty (a : Nat) : Memory.empty.read a = 0 := rfl

@[simp] theorem Memory.wf_empty : Memory.empty.wf = true := rfl

@[simp] theorem Memory.below_empty (n : Nat) : Memory.empty.below n = true := rfl

/-- Memory right after reset is canonical. -/
theorem Memory.wf_reset : State.reset.mem.wf = true := rfl

theorem Memory.read_write_same (m : Memory) (a : Nat) (v : Byte) (h : m.wf = true) :
    (m.write a v).read a = v := readCells_writeCells_same 0 a v m.cells h

theorem Memory.read_write_other (m : Memory) (a c : Nat) (v : Byte) (h : c ≠ a) :
    (m.write a v).read c = m.read c := readCells_writeCells_other a c v m.cells h

/-- Storing a byte keeps the canonical form. -/
theorem Memory.wf_write (m : Memory) (a : Nat) (v : Byte) (h : m.wf = true) : (m.write a v).wf = true :=
  cellsRise_writeCells 0 a v m.cells (Nat.zero_le a) h

/-- Storing a byte inside a bound keeps every cell inside it. -/
theorem Memory.below_write (m : Memory) (a n : Nat) (v : Byte) (h : m.below n = true) (ha : a < n) :
    (m.write a v).below n = true :=
  all_writeCells _ a v m.cells h (by simpa using ha)

/-- Loading a sequence of bytes keeps the canonical form. -/
theorem Memory.wf_load (m : Memory) (a : Nat) (bs : List Byte) (h : m.wf = true) : (m.load a bs).wf = true := by
  induction bs generalizing m a with
  | nil => exact h
  | cons b rest ih => exact ih (m.write a b) (a + 1) (m.wf_write a b h)

/-- Loading a sequence of bytes that ends inside a bound keeps every cell inside it. -/
theorem Memory.below_load (m : Memory) (a n : Nat) (bs : List Byte) (h : m.below n = true)
    (ha : a + bs.length ≤ n) : (m.load a bs).below n = true := by
  induction bs generalizing m a with
  | nil => exact h
  | cons b rest ih =>
    simp only [List.length_cons] at ha
    exact ih (m.write a b) (a + 1) (m.below_write a n b h (by omega)) (by omega)

/-- A load changes no byte below its first address. -/
theorem Memory.read_load_before (m : Memory) (a c : Nat) (bs : List Byte) (h : c < a) :
    (m.load a bs).read c = m.read c := by
  induction bs generalizing m a with
  | nil => rfl
  | cons b rest ih =>
    rw [Memory.load, ih (m.write a b) (a + 1) (by omega), m.read_write_other a c b (by omega)]

end Sys2Proof.Machine
end

