-- ==== Sys2Proof/Laws/State.lean ====
section
/-!
SUPPORT. One lemma per field per update of State, each true by rfl, so that no proof unfolds a record update; and the
register read after each update.
-/

namespace Sys2Proof.Machine

/-! ### `State.setReg` -/

@[simp] theorem State.setReg_cfg (s : State) (i : RegIdx) (v : Byte) : (s.setReg i v).cfg = s.cfg := rfl

@[simp] theorem State.setReg_regs (s : State) (i : RegIdx) (v : Byte) : (s.setReg i v).regs = s.regs.set i v := rfl

@[simp] theorem State.setReg_pc (s : State) (i : RegIdx) (v : Byte) : (s.setReg i v).pc = s.pc := rfl

@[simp] theorem State.setReg_sp (s : State) (i : RegIdx) (v : Byte) : (s.setReg i v).sp = s.sp := rfl

@[simp] theorem State.setReg_flags (s : State) (i : RegIdx) (v : Byte) : (s.setReg i v).flags = s.flags := rfl

@[simp] theorem State.setReg_mem (s : State) (i : RegIdx) (v : Byte) : (s.setReg i v).mem = s.mem := rfl

@[simp] theorem State.setReg_status (s : State) (i : RegIdx) (v : Byte) : (s.setReg i v).status = s.status := rfl

@[simp] theorem State.setReg_out (s : State) (i : RegIdx) (v : Byte) : (s.setReg i v).out = s.out := rfl

@[simp] theorem State.setReg_steps (s : State) (i : RegIdx) (v : Byte) : (s.setReg i v).steps = s.steps := rfl

@[simp] theorem State.setReg_loaded (s : State) (i : RegIdx) (v : Byte) : (s.setReg i v).loaded = s.loaded := rfl

/-! ### `State.setFlags` -/

@[simp] theorem State.setFlags_cfg (s : State) (f : Flags) : (s.setFlags f).cfg = s.cfg := rfl

@[simp] theorem State.setFlags_regs (s : State) (f : Flags) : (s.setFlags f).regs = s.regs := rfl

@[simp] theorem State.setFlags_pc (s : State) (f : Flags) : (s.setFlags f).pc = s.pc := rfl

@[simp] theorem State.setFlags_sp (s : State) (f : Flags) : (s.setFlags f).sp = s.sp := rfl

@[simp] theorem State.setFlags_flags (s : State) (f : Flags) : (s.setFlags f).flags = f := rfl

@[simp] theorem State.setFlags_mem (s : State) (f : Flags) : (s.setFlags f).mem = s.mem := rfl

@[simp] theorem State.setFlags_status (s : State) (f : Flags) : (s.setFlags f).status = s.status := rfl

@[simp] theorem State.setFlags_out (s : State) (f : Flags) : (s.setFlags f).out = s.out := rfl

@[simp] theorem State.setFlags_steps (s : State) (f : Flags) : (s.setFlags f).steps = s.steps := rfl

@[simp] theorem State.setFlags_loaded (s : State) (f : Flags) : (s.setFlags f).loaded = s.loaded := rfl

@[simp] theorem State.setFlags_reg (s : State) (f : Flags) (k : RegIdx) : (s.setFlags f).reg k = s.reg k := rfl

/-! ### `State.setSp` -/

@[simp] theorem State.setSp_cfg (s : State) (v : Byte) : (s.setSp v).cfg = s.cfg := rfl

@[simp] theorem State.setSp_regs (s : State) (v : Byte) : (s.setSp v).regs = s.regs := rfl

@[simp] theorem State.setSp_pc (s : State) (v : Byte) : (s.setSp v).pc = s.pc := rfl

@[simp] theorem State.setSp_sp (s : State) (v : Byte) : (s.setSp v).sp = v := rfl

@[simp] theorem State.setSp_flags (s : State) (v : Byte) : (s.setSp v).flags = s.flags := rfl

@[simp] theorem State.setSp_mem (s : State) (v : Byte) : (s.setSp v).mem = s.mem := rfl

@[simp] theorem State.setSp_status (s : State) (v : Byte) : (s.setSp v).status = s.status := rfl

@[simp] theorem State.setSp_out (s : State) (v : Byte) : (s.setSp v).out = s.out := rfl

@[simp] theorem State.setSp_steps (s : State) (v : Byte) : (s.setSp v).steps = s.steps := rfl

@[simp] theorem State.setSp_loaded (s : State) (v : Byte) : (s.setSp v).loaded = s.loaded := rfl

@[simp] theorem State.setSp_reg (s : State) (v : Byte) (k : RegIdx) : (s.setSp v).reg k = s.reg k := rfl

/-! ### `State.setMem` -/

@[simp] theorem State.setMem_cfg (s : State) (m : Memory) : (s.setMem m).cfg = s.cfg := rfl

@[simp] theorem State.setMem_regs (s : State) (m : Memory) : (s.setMem m).regs = s.regs := rfl

@[simp] theorem State.setMem_pc (s : State) (m : Memory) : (s.setMem m).pc = s.pc := rfl

@[simp] theorem State.setMem_sp (s : State) (m : Memory) : (s.setMem m).sp = s.sp := rfl

@[simp] theorem State.setMem_flags (s : State) (m : Memory) : (s.setMem m).flags = s.flags := rfl

@[simp] theorem State.setMem_mem (s : State) (m : Memory) : (s.setMem m).mem = m := rfl

@[simp] theorem State.setMem_status (s : State) (m : Memory) : (s.setMem m).status = s.status := rfl

@[simp] theorem State.setMem_out (s : State) (m : Memory) : (s.setMem m).out = s.out := rfl

@[simp] theorem State.setMem_steps (s : State) (m : Memory) : (s.setMem m).steps = s.steps := rfl

@[simp] theorem State.setMem_loaded (s : State) (m : Memory) : (s.setMem m).loaded = s.loaded := rfl

@[simp] theorem State.setMem_reg (s : State) (m : Memory) (k : RegIdx) : (s.setMem m).reg k = s.reg k := rfl

/-! ### `State.setStatus` -/

@[simp] theorem State.setStatus_cfg (s : State) (x : Status) : (s.setStatus x).cfg = s.cfg := rfl

@[simp] theorem State.setStatus_regs (s : State) (x : Status) : (s.setStatus x).regs = s.regs := rfl

@[simp] theorem State.setStatus_pc (s : State) (x : Status) : (s.setStatus x).pc = s.pc := rfl

@[simp] theorem State.setStatus_sp (s : State) (x : Status) : (s.setStatus x).sp = s.sp := rfl

@[simp] theorem State.setStatus_flags (s : State) (x : Status) : (s.setStatus x).flags = s.flags := rfl

@[simp] theorem State.setStatus_mem (s : State) (x : Status) : (s.setStatus x).mem = s.mem := rfl

@[simp] theorem State.setStatus_status (s : State) (x : Status) : (s.setStatus x).status = x := rfl

@[simp] theorem State.setStatus_out (s : State) (x : Status) : (s.setStatus x).out = s.out := rfl

@[simp] theorem State.setStatus_steps (s : State) (x : Status) : (s.setStatus x).steps = s.steps := rfl

@[simp] theorem State.setStatus_loaded (s : State) (x : Status) : (s.setStatus x).loaded = s.loaded := rfl

@[simp] theorem State.setStatus_reg (s : State) (x : Status) (k : RegIdx) : (s.setStatus x).reg k = s.reg k := rfl

/-! ### `State.emit` -/

@[simp] theorem State.emit_cfg (s : State) (v : Byte) : (s.emit v).cfg = s.cfg := rfl

@[simp] theorem State.emit_regs (s : State) (v : Byte) : (s.emit v).regs = s.regs := rfl

@[simp] theorem State.emit_pc (s : State) (v : Byte) : (s.emit v).pc = s.pc := rfl

@[simp] theorem State.emit_sp (s : State) (v : Byte) : (s.emit v).sp = s.sp := rfl

@[simp] theorem State.emit_flags (s : State) (v : Byte) : (s.emit v).flags = s.flags := rfl

@[simp] theorem State.emit_mem (s : State) (v : Byte) : (s.emit v).mem = s.mem := rfl

@[simp] theorem State.emit_status (s : State) (v : Byte) : (s.emit v).status = s.status := rfl

@[simp] theorem State.emit_out (s : State) (v : Byte) : (s.emit v).out = s.out ++ [v] := rfl

@[simp] theorem State.emit_steps (s : State) (v : Byte) : (s.emit v).steps = s.steps := rfl

@[simp] theorem State.emit_loaded (s : State) (v : Byte) : (s.emit v).loaded = s.loaded := rfl

@[simp] theorem State.emit_reg (s : State) (v : Byte) (k : RegIdx) : (s.emit v).reg k = s.reg k := rfl

/-! ### `State.completeAt` -/

@[simp] theorem State.completeAt_cfg (s : State) (p : PcWord) : (s.completeAt p).cfg = s.cfg := rfl

@[simp] theorem State.completeAt_regs (s : State) (p : PcWord) : (s.completeAt p).regs = s.regs := rfl

@[simp] theorem State.completeAt_pc (s : State) (p : PcWord) : (s.completeAt p).pc = p := rfl

@[simp] theorem State.completeAt_sp (s : State) (p : PcWord) : (s.completeAt p).sp = s.sp := rfl

@[simp] theorem State.completeAt_flags (s : State) (p : PcWord) : (s.completeAt p).flags = s.flags := rfl

@[simp] theorem State.completeAt_mem (s : State) (p : PcWord) : (s.completeAt p).mem = s.mem := rfl

@[simp] theorem State.completeAt_status (s : State) (p : PcWord) : (s.completeAt p).status = s.status := rfl

@[simp] theorem State.completeAt_out (s : State) (p : PcWord) : (s.completeAt p).out = s.out := rfl

@[simp] theorem State.completeAt_steps (s : State) (p : PcWord) : (s.completeAt p).steps = s.steps + 1 := rfl

@[simp] theorem State.completeAt_loaded (s : State) (p : PcWord) : (s.completeAt p).loaded = s.loaded := rfl

@[simp] theorem State.completeAt_reg (s : State) (p : PcWord) (k : RegIdx) : (s.completeAt p).reg k = s.reg k := rfl

/-! ### `State.advance` -/

@[simp] theorem State.advance_cfg (s : State) (n : Nat) : (s.advance n).cfg = s.cfg := rfl

@[simp] theorem State.advance_regs (s : State) (n : Nat) : (s.advance n).regs = s.regs := rfl

@[simp] theorem State.advance_pc (s : State) (n : Nat) : (s.advance n).pc = BitVec.ofNat 9 (s.pc.toNat + n) := rfl

@[simp] theorem State.advance_sp (s : State) (n : Nat) : (s.advance n).sp = s.sp := rfl

@[simp] theorem State.advance_flags (s : State) (n : Nat) : (s.advance n).flags = s.flags := rfl

@[simp] theorem State.advance_mem (s : State) (n : Nat) : (s.advance n).mem = s.mem := rfl

@[simp] theorem State.advance_status (s : State) (n : Nat) : (s.advance n).status = s.status := rfl

@[simp] theorem State.advance_out (s : State) (n : Nat) : (s.advance n).out = s.out := rfl

@[simp] theorem State.advance_steps (s : State) (n : Nat) : (s.advance n).steps = s.steps + 1 := rfl

@[simp] theorem State.advance_loaded (s : State) (n : Nat) : (s.advance n).loaded = s.loaded := rfl

@[simp] theorem State.advance_reg (s : State) (n : Nat) (k : RegIdx) : (s.advance n).reg k = s.reg k := rfl

/-! ### `State.jump` -/

@[simp] theorem State.jump_cfg (s : State) (b : Byte) : (s.jump b).cfg = s.cfg := rfl

@[simp] theorem State.jump_regs (s : State) (b : Byte) : (s.jump b).regs = s.regs := rfl

@[simp] theorem State.jump_pc (s : State) (b : Byte) : (s.jump b).pc = zext9 b := rfl

@[simp] theorem State.jump_sp (s : State) (b : Byte) : (s.jump b).sp = s.sp := rfl

@[simp] theorem State.jump_flags (s : State) (b : Byte) : (s.jump b).flags = s.flags := rfl

@[simp] theorem State.jump_mem (s : State) (b : Byte) : (s.jump b).mem = s.mem := rfl

@[simp] theorem State.jump_status (s : State) (b : Byte) : (s.jump b).status = s.status := rfl

@[simp] theorem State.jump_out (s : State) (b : Byte) : (s.jump b).out = s.out := rfl

@[simp] theorem State.jump_steps (s : State) (b : Byte) : (s.jump b).steps = s.steps + 1 := rfl

@[simp] theorem State.jump_loaded (s : State) (b : Byte) : (s.jump b).loaded = s.loaded := rfl

@[simp] theorem State.jump_reg (s : State) (b : Byte) (k : RegIdx) : (s.jump b).reg k = s.reg k := rfl

/-! ### Registers -/

@[simp] theorem State.setReg_reg_same (s : State) (i : RegIdx) (v : Byte) : (s.setReg i v).reg i = v := by
  simp [State.reg, State.setReg]

theorem State.setReg_reg_other (s : State) (i k : RegIdx) (v : Byte) (h : k ≠ i) :
    (s.setReg i v).reg k = s.reg k := by
  have h' : i.val ≠ k.val := fun e => h (Fin.ext e.symm)
  simp [State.reg, State.setReg, Vector.getElem_set_ne, h']

theorem State.setReg_reg (s : State) (i k : RegIdx) (v : Byte) :
    (s.setReg i v).reg k = if k = i then v else s.reg k := by
  split
  · subst k; simp
  · exact s.setReg_reg_other i k v ‹_›

/-! ### Reset -/

@[simp] theorem State.resetWith_cfg (c : Config) : (State.resetWith c).cfg = c := rfl

@[simp] theorem State.resetWith_pc (c : Config) : (State.resetWith c).pc = 0 := rfl

@[simp] theorem State.resetWith_sp (c : Config) : (State.resetWith c).sp = BitVec.ofNat 8 c.spInit := rfl

@[simp] theorem State.resetWith_flags (c : Config) : (State.resetWith c).flags = ⟨false, false⟩ := rfl

@[simp] theorem State.resetWith_mem (c : Config) : (State.resetWith c).mem = .empty := rfl

@[simp] theorem State.resetWith_status (c : Config) : (State.resetWith c).status = .ready := rfl

@[simp] theorem State.resetWith_out (c : Config) : (State.resetWith c).out = [] := rfl

@[simp] theorem State.resetWith_steps (c : Config) : (State.resetWith c).steps = 0 := rfl

@[simp] theorem State.resetWith_loaded (c : Config) : (State.resetWith c).loaded = false := rfl

@[simp] theorem State.resetWith_reg (c : Config) (k : RegIdx) : (State.resetWith c).reg k = 0 := by
  simp [State.reg, State.resetWith]

end Sys2Proof.Machine
end

