-- ==== Sys2Proof/Laws/Ops.lean ====
section
/-!
SUPPORT. For each shared operation, once, everything it can do. Proofs cite these instead of unfolding the operation.
-/

namespace Sys2Proof.Machine

/-! ### Sequencing: an effect that succeeds, or fails, taken apart -/

theorem bind_ok {α β : Type} {x : Except Fault α} {f : α → Except Fault β} {b : β} (h : (x >>= f) = .ok b) :
    ∃ a, x = .ok a ∧ f a = .ok b := by
  cases x with
  | ok a => exact ⟨a, rfl, h⟩
  | error k => cases h

theorem bind_error {α β : Type} {x : Except Fault α} {f : α → Except Fault β} {k : Fault}
    (h : (x >>= f) = .error k) : x = .error k ∨ ∃ a, x = .ok a ∧ f a = .error k := by
  cases x with
  | ok a => exact .inr ⟨a, rfl, h⟩
  | error k' => cases h; exact .inl rfl

@[simp] theorem ok_bind {α β : Type} (a : α) (f : α → Except Fault β) : (Except.ok a >>= f) = f a := rfl

@[simp] theorem error_bind {α β : Type} (k : Fault) (f : α → Except Fault β) :
    (Except.error k >>= f) = .error k := rfl

@[simp] theorem pure_eq_ok {α : Type} (a : α) : (pure a : Except Fault α) = .ok a := rfl

/-! ### Operands -/

theorem regIndex_valid (b : Byte) (i : RegIdx) (h : b.toNat = i.val) : regIndex b = .ok i := by
  have hb : b.toNat < 8 := h ▸ i.isLt
  simp only [regIndex, hb, dif_pos]
  exact congrArg Except.ok (Fin.ext h)

theorem regIndex_invalid (b : Byte) (h : 8 ≤ b.toNat) : regIndex b = .error .invalidRegister := by
  simp only [regIndex, dif_neg (show ¬b.toNat < 8 by omega)]

/-- A register byte names a register or raises InvalidRegister. -/
theorem regIndex_cases (b : Byte) :
    (∃ i : RegIdx, b.toNat = i.val ∧ regIndex b = .ok i) ∨ (8 ≤ b.toNat ∧ regIndex b = .error .invalidRegister) := by
  by_cases h : b.toNat < 8
  · exact .inl ⟨⟨b.toNat, h⟩, rfl, regIndex_valid b ⟨b.toNat, h⟩ rfl⟩
  · exact .inr ⟨by omega, regIndex_invalid b (by omega)⟩

theorem regIndex_ok {b : Byte} {i : RegIdx} (h : regIndex b = .ok i) : b.toNat = i.val := by
  rcases regIndex_cases b with ⟨j, hj, e⟩ | ⟨_, e⟩ <;> rw [e] at h <;> cases h
  exact hj

theorem regIndex_error {b : Byte} {k : Fault} (h : regIndex b = .error k) : 8 ≤ b.toNat ∧ k = .invalidRegister := by
  rcases regIndex_cases b with ⟨j, _, e⟩ | ⟨hb, e⟩ <;> rw [e] at h <;> cases h
  exact ⟨hb, rfl⟩

/-- Two register bytes of which one is 8 or more raise InvalidRegister, whatever is done with them. -/
theorem regIndex_pair_invalid {α : Type} (r1 r2 : Byte) (f : RegIdx → RegIdx → Except Fault α)
    (h : 8 ≤ r1.toNat ∨ 8 ≤ r2.toNat) :
    (do let i ← regIndex r1; let j ← regIndex r2; f i j) = .error .invalidRegister := by
  rcases regIndex_cases r1 with ⟨i, hi, e1⟩ | ⟨_, e1⟩ <;> rcases regIndex_cases r2 with ⟨j, hj, e2⟩ | ⟨_, e2⟩
  · omega
  all_goals simp [e1, e2, bind, Except.bind]

@[simp] theorem zext9_toNat (b : Byte) : (zext9 b).toNat = b.toNat := by
  have := b.isLt
  simp only [zext9, BitVec.toNat_setWidth]; omega

/-! ### Settling an effect -/

@[simp] theorem State.settle_ok (s t : State) : s.settle (.ok t) = .next t := rfl

@[simp] theorem State.settle_error (s : State) (k : Fault) :
    s.settle (.error k) = .next { s with status := .faulted k } := rfl

@[simp] theorem State.raise_eq (s : State) (k : Fault) : s.raise k = .next { s with status := .faulted k } := rfl

/-- A settled effect always answers a next state: the effect's own, or the faulted one. -/
theorem State.settle_cases (s : State) (e : Except Fault State) :
    (∃ t, e = .ok t ∧ s.settle e = .next t) ∨
      ∃ k, e = .error k ∧ s.settle e = .next { s with status := .faulted k } := by
  cases e with
  | ok t => exact .inl ⟨t, rfl, rfl⟩
  | error k => exact .inr ⟨k, rfl, rfl⟩

/-! ### Guards -/

@[simp] theorem guardFault_true (k : Fault) : guardFault true k = .error k := rfl

@[simp] theorem guardFault_false (k : Fault) : guardFault false k = .ok () := rfl

theorem guardFault_ok {bad : Bool} {k : Fault} {u : Unit} (h : guardFault bad k = .ok u) : bad = false := by
  cases bad with
  | false => rfl
  | true => cases h

theorem guardFault_error {bad : Bool} {k k' : Fault} (h : guardFault bad k = .error k') : bad = true ∧ k' = k := by
  cases bad with
  | false => cases h
  | true => cases h; exact ⟨rfl, rfl⟩

theorem State.stackFull_iff (s : State) : s.stackFull = true ↔ s.sp.toNat = s.cfg.stackLow :=
  decide_eq_true_iff

theorem State.stackEmpty_iff (s : State) : s.stackEmpty = true ↔ s.sp.toNat = s.cfg.memSize - 1 :=
  decide_eq_true_iff

theorem State.stackFull_of (s : State) (h : s.sp.toNat = s.cfg.stackLow) : s.stackFull = true := decide_eq_true h

theorem State.stackFull_not (s : State) (h : s.sp.toNat ≠ s.cfg.stackLow) : s.stackFull = false := decide_eq_false h

theorem State.stackEmpty_of (s : State) (h : s.sp.toNat = s.cfg.memSize - 1) : s.stackEmpty = true := decide_eq_true h

theorem State.stackEmpty_not (s : State) (h : s.sp.toNat ≠ s.cfg.memSize - 1) : s.stackEmpty = false :=
  decide_eq_false h

/-! ### Memory access -/

theorem State.memRead_inside (s : State) (a : Nat) (h : a < s.cfg.memSize) : s.memRead a = .ok (s.mem.read a) := by
  simp [State.memRead, h]

theorem State.memRead_outside (s : State) (a : Nat) (h : s.cfg.memSize ≤ a) : s.memRead a = .error .outOfBounds := by
  simp [State.memRead, Nat.not_lt.mpr h]

theorem State.memWrite_inside (s : State) (a : Nat) (v : Byte) (h : a < s.cfg.memSize) :
    s.memWrite a v = .ok (s.setMem (s.mem.write a v)) := by
  simp [State.memWrite, h]

theorem State.memWrite_outside (s : State) (a : Nat) (v : Byte) (h : s.cfg.memSize ≤ a) :
    s.memWrite a v = .error .outOfBounds := by
  simp [State.memWrite, Nat.not_lt.mpr h]

theorem State.memRead_ok {s : State} {a : Nat} {v : Byte} (h : s.memRead a = .ok v) :
    a < s.cfg.memSize ∧ v = s.mem.read a := by
  unfold State.memRead at h; split at h
  · cases h; exact ⟨‹_›, rfl⟩
  · cases h

theorem State.memRead_error {s : State} {a : Nat} {k : Fault} (h : s.memRead a = .error k) :
    s.cfg.memSize ≤ a ∧ k = .outOfBounds := by
  unfold State.memRead at h; split at h
  · cases h
  · cases h; exact ⟨by omega, rfl⟩

theorem State.memWrite_ok {s t : State} {a : Nat} {v : Byte} (h : s.memWrite a v = .ok t) :
    a < s.cfg.memSize ∧ t = s.setMem (s.mem.write a v) := by
  unfold State.memWrite at h; split at h
  · cases h; exact ⟨‹_›, rfl⟩
  · cases h

theorem State.memWrite_error {s : State} {a : Nat} {v : Byte} {k : Fault} (h : s.memWrite a v = .error k) :
    s.cfg.memSize ≤ a ∧ k = .outOfBounds := by
  unfold State.memWrite at h; split at h
  · cases h
  · cases h; exact ⟨by omega, rfl⟩

/-! ### The stack -/

theorem State.push_inside (s : State) (v : Byte) (h : s.sp.toNat < s.cfg.memSize) :
    s.push v = .ok ((s.setMem (s.mem.write s.sp.toNat v)).setSp (s.sp - 1)) := by
  simp [State.push, s.memWrite_inside _ v h, bind, Except.bind, pure, Except.pure]

theorem State.push_outside (s : State) (v : Byte) (h : s.cfg.memSize ≤ s.sp.toNat) :
    s.push v = .error .outOfBounds := by
  simp [State.push, s.memWrite_outside _ v h, bind, Except.bind]

theorem State.pop_inside (s : State) (h : s.popAddress < s.cfg.memSize) :
    s.pop = .ok (s.mem.read s.popAddress, s.setSp (s.sp + 1)) := by
  simp [State.pop, s.memRead_inside _ h, bind, Except.bind, pure, Except.pure]

theorem State.pop_outside (s : State) (h : s.cfg.memSize ≤ s.popAddress) : s.pop = .error .outOfBounds := by
  simp [State.pop, s.memRead_outside _ h, bind, Except.bind]

theorem State.push_ok {s t : State} {v : Byte} (h : s.push v = .ok t) :
    s.sp.toNat < s.cfg.memSize ∧ t = (s.setMem (s.mem.write s.sp.toNat v)).setSp (s.sp - 1) := by
  obtain ⟨u, hu, e⟩ := bind_ok h
  obtain ⟨ha, rfl⟩ := State.memWrite_ok hu
  cases e; exact ⟨ha, rfl⟩

theorem State.push_error {s : State} {v : Byte} {k : Fault} (h : s.push v = .error k) :
    s.cfg.memSize ≤ s.sp.toNat ∧ k = .outOfBounds := by
  rcases bind_error h with e | ⟨u, _, e⟩
  · exact State.memWrite_error e
  · cases e

theorem State.pop_ok {s t : State} {v : Byte} (h : s.pop = .ok (v, t)) :
    s.popAddress < s.cfg.memSize ∧ v = s.mem.read s.popAddress ∧ t = s.setSp (s.sp + 1) := by
  obtain ⟨w, hw, e⟩ := bind_ok h
  obtain ⟨ha, rfl⟩ := State.memRead_ok hw
  cases e; exact ⟨ha, rfl, rfl⟩

theorem State.pop_error {s : State} {k : Fault} (h : s.pop = .error k) :
    s.cfg.memSize ≤ s.popAddress ∧ k = .outOfBounds := by
  rcases bind_error h with e | ⟨u, _, e⟩
  · exact State.memRead_error e
  · cases e

/-- A push moves the stack pointer down by one, unless it wraps. -/
theorem byte_pred_toNat (b : Byte) (h : b.toNat ≠ 0) : (b - 1).toNat + 1 = b.toNat := by
  bv_omega

/-- A pop reads one above the stack pointer, unless it wraps. -/
theorem byte_succ_toNat (b : Byte) (h : b.toNat < 255) : (b + 1).toNat = b.toNat + 1 := by
  bv_omega

/-! ### Loads and stores -/

theorem State.loadFrom_inside (s : State) (i : RegIdx) (ea : Nat) (h : ea < s.cfg.memSize) :
    s.loadFrom i ea = .ok ((s.setReg i (s.mem.read ea)).advance 3) := by
  simp [State.loadFrom, s.memRead_inside ea h, bind, Except.bind, pure, Except.pure]

theorem State.loadFrom_outside (s : State) (i : RegIdx) (ea : Nat) (h : s.cfg.memSize ≤ ea) :
    s.loadFrom i ea = .error .outOfBounds := by
  simp [State.loadFrom, s.memRead_outside ea h, bind, Except.bind]

theorem State.storeTo_inside (s : State) (i : RegIdx) (ea : Nat) (h : ea < s.cfg.memSize) :
    s.storeTo i ea = .ok ((s.setMem (s.mem.write ea (s.reg i))).advance 3) := by
  simp [State.storeTo, s.memWrite_inside ea _ h, bind, Except.bind, pure, Except.pure]

theorem State.storeTo_outside (s : State) (i : RegIdx) (ea : Nat) (h : s.cfg.memSize ≤ ea) :
    s.storeTo i ea = .error .outOfBounds := by
  simp [State.storeTo, s.memWrite_outside ea _ h, bind, Except.bind]

theorem State.loadFrom_ok {s t : State} {i : RegIdx} {ea : Nat} (h : s.loadFrom i ea = .ok t) :
    ea < s.cfg.memSize ∧ t = (s.setReg i (s.mem.read ea)).advance 3 := by
  obtain ⟨v, hv, e⟩ := bind_ok h
  obtain ⟨ha, rfl⟩ := State.memRead_ok hv
  cases e; exact ⟨ha, rfl⟩

theorem State.loadFrom_error {s : State} {i : RegIdx} {ea : Nat} {k : Fault} (h : s.loadFrom i ea = .error k) :
    s.cfg.memSize ≤ ea ∧ k = .outOfBounds := by
  rcases bind_error h with e | ⟨_, _, e⟩
  · exact State.memRead_error e
  · cases e

theorem State.storeTo_ok {s t : State} {i : RegIdx} {ea : Nat} (h : s.storeTo i ea = .ok t) :
    ea < s.cfg.memSize ∧ t = (s.setMem (s.mem.write ea (s.reg i))).advance 3 := by
  obtain ⟨u, hu, e⟩ := bind_ok h
  obtain ⟨ha, rfl⟩ := State.memWrite_ok hu
  cases e; exact ⟨ha, rfl⟩

theorem State.storeTo_error {s : State} {i : RegIdx} {ea : Nat} {k : Fault} (h : s.storeTo i ea = .error k) :
    s.cfg.memSize ≤ ea ∧ k = .outOfBounds := by
  rcases bind_error h with e | ⟨_, _, e⟩
  · exact State.memWrite_error e
  · cases e

/-! ### Register operations -/

theorem State.unaryOp_valid (s : State) (f : Byte → Byte) (r : Byte) (i : RegIdx) (h : r.toNat = i.val) :
    s.unaryOp f r = .next ((s.setReg i (f (s.reg i))).advance 2) := by
  simp [State.unaryOp, regIndex_valid r i h, bind, Except.bind, pure, Except.pure]

theorem State.unaryOp_invalid (s : State) (f : Byte → Byte) (r : Byte) (h : 8 ≤ r.toNat) :
    s.unaryOp f r = .next { s with status := .faulted .invalidRegister } := by
  simp [State.unaryOp, regIndex_invalid r h, bind, Except.bind]

theorem State.binaryOp_valid (s : State) (f : Byte → Byte → Except Fault Byte) (r1 r2 : Byte) (i j : RegIdx)
    (h1 : r1.toNat = i.val) (h2 : r2.toNat = j.val) :
    s.binaryOp f r1 r2 =
      match f (s.reg i) (s.reg j) with
      | .ok v => .next ((s.setReg i v).advance 3)
      | .error k => .next { s with status := .faulted k } := by
  cases e : f (s.reg i) (s.reg j) <;>
    simp [State.binaryOp, regIndex_valid r1 i h1, regIndex_valid r2 j h2, e, bind, Except.bind, pure, Except.pure]

theorem State.binaryOp_invalid (s : State) (f : Byte → Byte → Except Fault Byte) (r1 r2 : Byte)
    (h : 8 ≤ r1.toNat ∨ 8 ≤ r2.toNat) :
    s.binaryOp f r1 r2 = .next { s with status := .faulted .invalidRegister } := by
  simp [State.binaryOp, regIndex_pair_invalid r1 r2 _ h]

/-! ### Branches -/

theorem State.branch_eq (s : State) (taken : Bool) (target : Byte) :
    s.branch taken target = .next (if taken = true then s.jump target else s.advance 2) := rfl

/-! ### Program-counter arithmetic -/

/-- The advance is an ordinary sum while the program counter is in its range (R12, R21). -/
theorem State.advance_pc_toNat (s : State) (n : Nat) (h : s.pc.toNat ≤ 256) (hn : n ≤ 3) :
    (s.advance n).pc.toNat = s.pc.toNat + n := by
  simp only [State.advance_pc, BitVec.toNat_ofNat]; omega

/-! ### Arithmetic: the exact result modulo 256 -/

theorem wrap8_toNat (n : Nat) : (wrap8 (n : Int)).toNat = n % 256 := by
  simp [wrap8]

theorem addByte_toNat (a b : Byte) : (addByte a b).toNat = (a.toNat + b.toNat) % 256 := by
  rw [addByte, ← Int.natCast_add, wrap8_toNat]

theorem mulByte_toNat (a b : Byte) : (mulByte a b).toNat = (a.toNat * b.toNat) % 256 := by
  rw [mulByte, ← Int.natCast_mul, wrap8_toNat]

theorem incByte_toNat (a : Byte) : (incByte a).toNat = (a.toNat + 1) % 256 :=
  wrap8_toNat (a.toNat + 1)

theorem wrap8_toInt (n : Int) : ((wrap8 n).toNat : Int) = n % 256 := by
  simp only [wrap8, BitVec.toNat_ofInt]; omega

theorem subByte_toInt (a b : Byte) : ((subByte a b).toNat : Int) = ((a.toNat : Int) - b.toNat) % 256 :=
  wrap8_toInt _

theorem decByte_toInt (a : Byte) : ((decByte a).toNat : Int) = ((a.toNat : Int) - 1) % 256 :=
  wrap8_toInt _

theorem divByte_zero (a b : Byte) (h : b.toNat = 0) : divByte a b = .error .divisionByZero := by
  simp [divByte, h]

theorem divByte_error {a b : Byte} {k : Fault} (h : divByte a b = .error k) : b.toNat = 0 ∧ k = .divisionByZero := by
  unfold divByte at h; split at h
  · cases h; exact ⟨‹_›, rfl⟩
  · cases h

theorem divByte_nonzero (a b : Byte) (h : b.toNat ≠ 0) :
    ∃ v : Byte, divByte a b = .ok v ∧ v.toNat = a.toNat / b.toNat := by
  refine ⟨BitVec.ofNat 8 (a.toNat / b.toNat), by simp [divByte, h], ?_⟩
  have hle : a.toNat / b.toNat ≤ a.toNat := Nat.div_le_self _ _
  exact BitVec.toNat_ofNat _ _ |>.trans (Nat.mod_eq_of_lt (hle.trans_lt a.isLt))

end Sys2Proof.Machine
end

