-- ==== Sys2Proof/Laws/Effects.lean ====
section
/-!
SUPPORT. Once, everything an executed instruction can do (`exec_cases`): it completes in one of nine shapes of state,
or takes a fault. Proofs about all instructions cite it instead of unfolding the 27 meanings.
-/

namespace Sys2Proof.Machine

/-- The shapes of the state that an instruction completes in. -/
inductive Completed (s : State) : State → Prop where
  | wroteReg (i : RegIdx) (v : Byte) (n : Nat) : Completed s ((s.setReg i v).advance n)
  | wroteMem (a : Nat) (v : Byte) (ha : a < s.cfg.memSize) : Completed s ((s.setMem (s.mem.write a v)).advance 3)
  | compared (a b : Byte) : Completed s ((s.setFlags (compareBytes a b)).advance 3)
  | went (p : PcWord) : Completed s (s.completeAt p)
  | pushed (v : Byte) (p : PcWord) (hf : s.stackFull = false) (ha : s.sp.toNat < s.cfg.memSize) :
      Completed s (((s.setMem (s.mem.write s.sp.toNat v)).setSp (s.sp - 1)).completeAt p)
  | popped (i : RegIdx) (he : s.stackEmpty = false) (ha : s.popAddress < s.cfg.memSize) :
      Completed s (((s.setSp (s.sp + 1)).setReg i (s.mem.read s.popAddress)).advance 2)
  | returned (he : s.stackEmpty = false) (ha : s.popAddress < s.cfg.memSize) :
      Completed s ((s.setSp (s.sp + 1)).jump (s.mem.read s.popAddress))
  | emitted (v : Byte) : Completed s ((s.emit v).advance 2)
  | halted : Completed s ((s.advance 1).setStatus .halted)

theorem completed_branch (s : State) (b : Bool) (a : Byte) :
    Completed s (if b = true then s.jump a else s.advance 2) := by
  split
  · exact .went _
  · exact .went _

theorem completed_unary {s t : State} {f : Byte → Byte} {r : Byte} (h : s.unaryOp f r = .next t) :
    Completed s t ∨ ∃ k, t = { s with status := .faulted k } := by
  rcases regIndex_cases r with ⟨i, hi, _⟩ | ⟨hr, _⟩
  · rw [s.unaryOp_valid f r i hi] at h; cases h; exact .inl (.wroteReg ..)
  · rw [s.unaryOp_invalid f r hr] at h; cases h; exact .inr ⟨_, rfl⟩

/-- An effect is settled: what holds of every state it can give holds, or a fault was taken. -/
theorem completed_settle {s t : State} {e : Except Fault State} (he : ∀ u, e = .ok u → Completed s u)
    (h : s.settle e = .next t) : Completed s t ∨ ∃ k, t = { s with status := .faulted k } := by
  rcases s.settle_cases e with ⟨u, e1, e2⟩ | ⟨k, e1, e2⟩ <;> rw [e2] at h <;> cases h
  · exact .inl (he _ e1)
  · exact .inr ⟨k, rfl⟩

theorem completed_binary {s t : State} {f : Byte → Byte → Except Fault Byte} {r1 r2 : Byte}
    (h : s.binaryOp f r1 r2 = .next t) : Completed s t ∨ ∃ k, t = { s with status := .faulted k } := by
  refine completed_settle (fun u hu => ?_) h
  obtain ⟨i, _, hu⟩ := bind_ok hu
  obtain ⟨j, _, hu⟩ := bind_ok hu
  obtain ⟨v, _, hu⟩ := bind_ok hu
  cases hu; exact .wroteReg i v 3

/-- What executing an instruction can do. -/
theorem exec_cases (i : Instr) (s t : State) (h : exec i s = .next t) :
    Completed s t ∨ ∃ k, t = { s with status := .faulted k } := by
  cases i with
  | inc r => exact completed_unary (f := incByte) h
  | dec r => exact completed_unary (f := decByte) h
  | movRI r imm =>
    refine completed_settle (fun u hu => ?_) h
    obtain ⟨i, _, hu⟩ := bind_ok hu
    cases hu; exact .wroteReg ..
  | movRR r1 r2 => exact completed_binary (f := fun _ b => .ok b) h
  | add r1 r2 => exact completed_binary (f := fun a b => .ok (addByte a b)) h
  | sub r1 r2 => exact completed_binary (f := fun a b => .ok (subByte a b)) h
  | mul r1 r2 => exact completed_binary (f := fun a b => .ok (mulByte a b)) h
  | div r1 r2 => exact completed_binary (f := divByte) h
  | load r a =>
    refine completed_settle (fun u hu => ?_) h
    obtain ⟨i, _, hu⟩ := bind_ok hu
    obtain ⟨_, rfl⟩ := State.loadFrom_ok hu
    exact .wroteReg ..
  | store r a =>
    refine completed_settle (fun u hu => ?_) h
    obtain ⟨i, _, hu⟩ := bind_ok hu
    obtain ⟨ha, rfl⟩ := State.storeTo_ok hu
    exact .wroteMem _ _ ha
  | ldxi r1 r2 =>
    refine completed_settle (fun u hu => ?_) h
    obtain ⟨i, _, hu⟩ := bind_ok hu
    obtain ⟨j, _, hu⟩ := bind_ok hu
    obtain ⟨_, rfl⟩ := State.loadFrom_ok hu
    exact .wroteReg ..
  | stxi r1 r2 =>
    refine completed_settle (fun u hu => ?_) h
    obtain ⟨i, _, hu⟩ := bind_ok hu
    obtain ⟨j, _, hu⟩ := bind_ok hu
    obtain ⟨ha, rfl⟩ := State.storeTo_ok hu
    exact .wroteMem _ _ ha
  | cmp r1 r2 =>
    refine completed_settle (fun u hu => ?_) h
    obtain ⟨i, _, hu⟩ := bind_ok hu
    obtain ⟨j, _, hu⟩ := bind_ok hu
    cases hu; exact .compared ..
  | jmp a | nop => cases h; exact .inl (.went _)
  | jeq a | jne a | jgt a | jlt a | jle a | jge a => cases h; exact .inl (completed_branch ..)
  | push r =>
    refine completed_settle (fun u hu => ?_) h
    obtain ⟨i, _, hu⟩ := bind_ok hu
    obtain ⟨_, hg, hu⟩ := bind_ok hu
    obtain ⟨w, hw, hu⟩ := bind_ok hu
    obtain ⟨ha, rfl⟩ := State.push_ok hw
    cases hu; exact .pushed _ _ (guardFault_ok hg) ha
  | pop r =>
    refine completed_settle (fun u hu => ?_) h
    obtain ⟨i, _, hu⟩ := bind_ok hu
    obtain ⟨_, hg, hu⟩ := bind_ok hu
    obtain ⟨⟨v, w⟩, hw, hu⟩ := bind_ok hu
    obtain ⟨ha, rfl, rfl⟩ := State.pop_ok hw
    cases hu; exact .popped i (guardFault_ok hg) ha
  | call a =>
    refine completed_settle (fun u hu => ?_) h
    obtain ⟨_, hg, hu⟩ := bind_ok hu
    obtain ⟨_, _, hu⟩ := bind_ok hu
    obtain ⟨w, hw, hu⟩ := bind_ok hu
    obtain ⟨ha, rfl⟩ := State.push_ok hw
    cases hu; exact .pushed _ _ (guardFault_ok hg) ha
  | ret =>
    refine completed_settle (fun u hu => ?_) h
    obtain ⟨_, hg, hu⟩ := bind_ok hu
    obtain ⟨⟨v, w⟩, hw, hu⟩ := bind_ok hu
    obtain ⟨ha, rfl, rfl⟩ := State.pop_ok hw
    cases hu; exact .returned (guardFault_ok hg) ha
  | out r =>
    refine completed_settle (fun u hu => ?_) h
    obtain ⟨i, _, hu⟩ := bind_ok hu
    cases hu; exact .emitted _
  | hlt => cases h; exact .inl .halted

end Sys2Proof.Machine
end

