-- ==== Sys2Proof/Laws/Fetch.lean ====
section
/-!
SUPPORT. What a fetch can do (R55), case by case, and what the operations do to the canonical form of memory.
-/

namespace Sys2Proof.Machine

/-- The bytes a fetch may read, by how many cells are left. -/
theorem State.window_eq (s : State) :
    s.window =
      if s.pc.toNat + 2 < s.cfg.memSize then
        [s.mem.read s.pc.toNat, s.mem.read (s.pc.toNat + 1), s.mem.read (s.pc.toNat + 2)]
      else if s.pc.toNat + 1 < s.cfg.memSize then [s.mem.read s.pc.toNat, s.mem.read (s.pc.toNat + 1)]
      else if s.pc.toNat < s.cfg.memSize then [s.mem.read s.pc.toNat]
      else [] := by
  have hr : List.range maxLength = [0, 1, 2] := rfl
  simp only [State.window, hr, State.memRead, Except.toOption, List.filterMap_cons, List.filterMap_nil, Nat.add_zero]
  by_cases h2 : s.pc.toNat + 2 < s.cfg.memSize
  · simp [h2, show s.pc.toNat + 1 < s.cfg.memSize by omega, show s.pc.toNat < s.cfg.memSize by omega]
  by_cases h1 : s.pc.toNat + 1 < s.cfg.memSize
  · simp [h2, h1, show s.pc.toNat < s.cfg.memSize by omega]
  by_cases h0 : s.pc.toNat < s.cfg.memSize <;> simp [h2, h1, h0]

/-- R55 step 1. -/
theorem State.fetch_pc_outside (s : State) (h : s.cfg.memSize ≤ s.pc.toNat) : s.fetch = .error .outOfBounds := by
  have hw : s.window = [] := by
    rw [s.window_eq, if_neg (by omega), if_neg (by omega), if_neg (by omega)]
  simp [State.fetch, hw, decode, fetchFault]

theorem State.window_head (s : State) (h : s.pc.toNat < s.cfg.memSize) :
    ∃ rest, s.window = s.mem.read s.pc.toNat :: rest := by
  have hw := s.window_eq
  by_cases h2 : s.pc.toNat + 2 < s.cfg.memSize
  · exact ⟨_, hw.trans (if_pos h2)⟩
  · by_cases h1 : s.pc.toNat + 1 < s.cfg.memSize
    · exact ⟨_, hw.trans ((if_neg h2).trans (if_pos h1))⟩
    · exact ⟨_, hw.trans ((if_neg h2).trans ((if_neg h1).trans (if_pos h)))⟩

/-- R55 step 2. -/
theorem State.fetch_unknown (s : State) (h : s.pc.toNat < s.cfg.memSize)
    (hf : s.cfg.opcodeMap.find (s.mem.read s.pc.toNat) = none) : s.fetch = .error .unknownOpcode := by
  obtain ⟨rest, hw⟩ := s.window_head h
  simp [State.fetch, hw, decode, hf, fetchFault]

/-- The length of what a fetch may read. -/
theorem State.window_length (s : State) : s.window.length = min 3 (s.cfg.memSize - s.pc.toNat) := by
  rw [s.window_eq]
  split
  · simp only [List.length_cons, List.length_nil]; omega
  · split
    · simp only [List.length_cons, List.length_nil]; omega
    · split
      · simp only [List.length_cons, List.length_nil]; omega
      · simp only [List.length_nil]; omega

/-- R55 step 3: an operand byte lies past the end of memory. -/
theorem State.fetch_truncated (s : State) (k : Opcode) (h : s.pc.toNat < s.cfg.memSize)
    (hf : s.cfg.opcodeMap.find (s.mem.read s.pc.toNat) = some k)
    (ht : s.cfg.memSize - 1 < s.pc.toNat + k.operandCount) : s.fetch = .error .outOfBounds := by
  obtain ⟨rest, hw⟩ := s.window_head h
  have hl := s.window_length
  have hk := k.operandCount_le
  rw [hw, List.length_cons] at hl
  simp [State.fetch, hw, decode, hf, takeOperands_truncated k rest (by omega), fetchFault]

/-- R55: the whole instruction lies inside memory. -/
theorem State.fetch_whole (s : State) (k : Opcode)
    (hf : s.cfg.opcodeMap.find (s.mem.read s.pc.toNat) = some k)
    (hi : s.pc.toNat + k.operandCount < s.cfg.memSize) :
    s.fetch = .ok (k.instr (s.mem.read (s.pc.toNat + 1)) (s.mem.read (s.pc.toNat + 2))) := by
  have hd : ∀ rest more, s.window = s.mem.read s.pc.toNat :: rest →
      takeOperands k rest = .ok (k.instr (s.mem.read (s.pc.toNat + 1)) (s.mem.read (s.pc.toNat + 2)), more) →
      s.fetch = .ok (k.instr (s.mem.read (s.pc.toNat + 1)) (s.mem.read (s.pc.toNat + 2))) := by
    intro rest more hw he
    simp [State.fetch, hw, decode, hf, he]
  have hw := s.window_eq
  obtain hc | hc | hc : k.operandCount = 0 ∨ k.operandCount = 1 ∨ k.operandCount = 2 := by
    have := k.operandCount_le; omega
  · obtain ⟨rest, hr⟩ := s.window_head (by omega)
    exact hd _ _ hr (takeOperands_zero k hc _ _ rest)
  · by_cases h2 : s.pc.toNat + 2 < s.cfg.memSize
    · exact hd _ _ (hw.trans (if_pos h2)) (takeOperands_one k hc _ _ _)
    · exact hd _ _ (hw.trans ((if_neg h2).trans (if_pos (by omega)))) (takeOperands_one k hc _ _ _)
  · exact hd _ _ (hw.trans (if_pos (by omega))) (takeOperands_two k hc _ _ _)

/-- A running machine whose limit is not reached executes the instruction it fetches. -/
theorem step_of_fetch (s : State) (i : Instr) (hr : s.status = .running) (hl : s.limitReached = false)
    (hf : s.fetch = .ok i) : step s = exec i s := by
  simp [step, hr, hl, runInstruction, hf]

/-- A running machine whose limit is not reached takes the fault of its fetch. -/
theorem step_of_fetch_fault (s : State) (k : Fault) (hr : s.status = .running) (hl : s.limitReached = false)
    (hf : s.fetch = .error k) : step s = .next { s with status := .faulted k } := by
  simp [step, hr, hl, runInstruction, hf]

/-! ### The canonical form of memory under the operations -/

theorem State.memWrite_wf (s t : State) (a : Nat) (v : Byte) (h : s.memWrite a v = .ok t) (hm : s.mem.wf = true) :
    t.mem.wf = true := by
  by_cases ha : a < s.cfg.memSize
  · rw [s.memWrite_inside a v ha] at h; cases h; exact s.mem.wf_write a v hm
  · rw [s.memWrite_outside a v (by omega)] at h; cases h

theorem State.push_wf (s t : State) (v : Byte) (h : s.push v = .ok t) (hm : s.mem.wf = true) : t.mem.wf = true := by
  by_cases ha : s.sp.toNat < s.cfg.memSize
  · rw [s.push_inside v ha] at h; cases h; exact s.mem.wf_write _ v hm
  · rw [s.push_outside v (by omega)] at h; cases h

theorem State.storeTo_wf (s t : State) (i : RegIdx) (ea : Nat) (h : s.storeTo i ea = .ok t) (hm : s.mem.wf = true) :
    t.mem.wf = true := by
  by_cases ha : ea < s.cfg.memSize
  · rw [s.storeTo_inside i ea ha] at h; cases h; exact s.mem.wf_write _ _ hm
  · rw [s.storeTo_outside i ea (by omega)] at h; cases h

theorem State.placeBytes_wf (s : State) (a : Nat) (bs : List Byte) (hm : s.mem.wf = true) :
    (s.placeBytes a bs).mem.wf = true := by
  induction bs generalizing s a with
  | nil => exact hm
  | cons b rest ih =>
    unfold State.placeBytes; split
    · exact ih (s.setMem (s.mem.write a b)) (a + 1) (s.mem.wf_write a b hm)
    · exact hm

end Sys2Proof.Machine
end

