-- ==== Sys2Proof/Laws/Invariant.lean ====
section
/-!
SUPPORT. What the invariant gives at once, and the frames of the common updates.
-/

namespace Sys2Proof.Machine

/-- The ranges of the configuration. -/
theorem State.Inv.ranges {s : State} (h : s.Inv) :
    1 ≤ s.cfg.memSize ∧ s.cfg.memSize ≤ 256 ∧ s.cfg.stackLow ≤ s.cfg.memSize - 1 ∧ s.cfg.opcodeMap.wf = true :=
  (Config.wf_iff _).mp h.cfgOk

/-- The stack pointer addresses a cell. -/
theorem State.Inv.sp_inside {s : State} (h : s.Inv) : s.sp.toNat < s.cfg.memSize := by
  have := h.ranges; have := h.spHigh; omega

/-- When the stack is not full, a push moves the stack pointer down by one. -/
theorem State.Inv.sp_pred {s : State} (h : s.Inv) (hf : s.sp.toNat ≠ s.cfg.stackLow) :
    (s.sp - 1).toNat + 1 = s.sp.toNat :=
  byte_pred_toNat s.sp (by have := h.spLow; omega)

/-- When the stack is not empty, a pop reads the cell above the stack pointer. -/
theorem State.Inv.popAddress_eq {s : State} (h : s.Inv) (he : s.sp.toNat ≠ s.cfg.memSize - 1) :
    s.popAddress = s.sp.toNat + 1 :=
  byte_succ_toNat s.sp (by have := h.ranges; have := h.spHigh; omega)

theorem State.Inv.popAddress_inside {s : State} (h : s.Inv) (he : s.sp.toNat ≠ s.cfg.memSize - 1) :
    s.popAddress < s.cfg.memSize := by
  have := h.popAddress_eq he; have := h.ranges; have := h.spHigh; omega

/-- Writing a register and advancing changes that register, `pc` and the count of steps. -/
theorem frame_setReg_advance (s : State) (i : RegIdx) (v : Byte) (n : Nat) :
    SameOtherRegs i s ((s.setReg i v).advance n) ∧ RegisterFrame s ((s.setReg i v).advance n) :=
  ⟨fun k hk => by simp [State.setReg_reg_other _ _ _ _ hk], rfl, rfl, fun _ => rfl, rfl, rfl, rfl, rfl, rfl⟩

/-- Advancing changes `pc` and the count of steps alone. -/
theorem frame_advance (s : State) (n : Nat) : ControlFrame s (s.advance n) :=
  ⟨fun _ => rfl, rfl, rfl, fun _ => rfl, rfl, rfl, rfl, rfl, rfl⟩

/-- Jumping changes `pc` and the count of steps alone. -/
theorem frame_jump (s : State) (target : Byte) : ControlFrame s (s.jump target) :=
  ⟨fun _ => rfl, rfl, rfl, fun _ => rfl, rfl, rfl, rfl, rfl, rfl⟩

end Sys2Proof.Machine
end

