-- ==== Sys2Proof/Laws/PerInstr.lean ====
section
/-!
SUPPORT. Statements made per instruction. `Rebuilt`: an instruction is its opcode with its operand bytes, as many as
its format has (R51, R52).
-/

namespace Sys2Proof.Laws

/-- The opcode and the operand bytes of an instruction give it back, and the format says how many bytes there are. -/
def Rebuilt.Statement (i : Instr) : Prop :=
  i.opcode.instr (i.operands.getD 0 0) (i.operands.getD 1 0) = i ∧ i.operands.length = i.opcode.operandCount

theorem Rebuilt.inc (reg : Byte) : Rebuilt.Statement (.inc reg) := ⟨rfl, rfl⟩

theorem Rebuilt.dec (reg : Byte) : Rebuilt.Statement (.dec reg) := ⟨rfl, rfl⟩

theorem Rebuilt.movRI (reg imm : Byte) : Rebuilt.Statement (.movRI reg imm) := ⟨rfl, rfl⟩

theorem Rebuilt.movRR (reg1 reg2 : Byte) : Rebuilt.Statement (.movRR reg1 reg2) := ⟨rfl, rfl⟩

theorem Rebuilt.add (reg1 reg2 : Byte) : Rebuilt.Statement (.add reg1 reg2) := ⟨rfl, rfl⟩

theorem Rebuilt.sub (reg1 reg2 : Byte) : Rebuilt.Statement (.sub reg1 reg2) := ⟨rfl, rfl⟩

theorem Rebuilt.mul (reg1 reg2 : Byte) : Rebuilt.Statement (.mul reg1 reg2) := ⟨rfl, rfl⟩

theorem Rebuilt.div (reg1 reg2 : Byte) : Rebuilt.Statement (.div reg1 reg2) := ⟨rfl, rfl⟩

theorem Rebuilt.load (reg addr : Byte) : Rebuilt.Statement (.load reg addr) := ⟨rfl, rfl⟩

theorem Rebuilt.store (reg addr : Byte) : Rebuilt.Statement (.store reg addr) := ⟨rfl, rfl⟩

theorem Rebuilt.ldxi (reg1 reg2 : Byte) : Rebuilt.Statement (.ldxi reg1 reg2) := ⟨rfl, rfl⟩

theorem Rebuilt.stxi (reg1 reg2 : Byte) : Rebuilt.Statement (.stxi reg1 reg2) := ⟨rfl, rfl⟩

theorem Rebuilt.cmp (reg1 reg2 : Byte) : Rebuilt.Statement (.cmp reg1 reg2) := ⟨rfl, rfl⟩

theorem Rebuilt.jmp (addr : Byte) : Rebuilt.Statement (.jmp addr) := ⟨rfl, rfl⟩

theorem Rebuilt.jeq (addr : Byte) : Rebuilt.Statement (.jeq addr) := ⟨rfl, rfl⟩

theorem Rebuilt.jne (addr : Byte) : Rebuilt.Statement (.jne addr) := ⟨rfl, rfl⟩

theorem Rebuilt.jgt (addr : Byte) : Rebuilt.Statement (.jgt addr) := ⟨rfl, rfl⟩

theorem Rebuilt.jlt (addr : Byte) : Rebuilt.Statement (.jlt addr) := ⟨rfl, rfl⟩

theorem Rebuilt.jle (addr : Byte) : Rebuilt.Statement (.jle addr) := ⟨rfl, rfl⟩

theorem Rebuilt.jge (addr : Byte) : Rebuilt.Statement (.jge addr) := ⟨rfl, rfl⟩

theorem Rebuilt.push (reg : Byte) : Rebuilt.Statement (.push reg) := ⟨rfl, rfl⟩

theorem Rebuilt.pop (reg : Byte) : Rebuilt.Statement (.pop reg) := ⟨rfl, rfl⟩

theorem Rebuilt.call (addr : Byte) : Rebuilt.Statement (.call addr) := ⟨rfl, rfl⟩

theorem Rebuilt.ret : Rebuilt.Statement (.ret) := ⟨rfl, rfl⟩

theorem Rebuilt.out (reg : Byte) : Rebuilt.Statement (.out reg) := ⟨rfl, rfl⟩

theorem Rebuilt.hlt : Rebuilt.Statement (.hlt) := ⟨rfl, rfl⟩

theorem Rebuilt.nop : Rebuilt.Statement (.nop) := ⟨rfl, rfl⟩

end Sys2Proof.Laws
end

