-- ==== Sys2Proof/Laws/Run.lean ====
section
/-!
SUPPORT. Runs of several steps, taken apart and joined.
-/

namespace Sys2Proof.Machine

@[simp] theorem run_zero (s : State) : Host.Core.run Sys2Proof.core 0 s = .next s := rfl

theorem core_run_succ (M : Host.Core) (n : Nat) (s : M.State) :
    Host.Core.run M (n + 1) s =
      match M.step s with
      | .next t => Host.Core.run M n t
      | .fault r => .fault r
      | .refused r => .refused r := rfl

theorem core_run_succ_next (M : Host.Core) (n : Nat) (s t : M.State) (h : M.step s = .next t) :
    Host.Core.run M (n + 1) s = Host.Core.run M n t := by
  rw [core_run_succ, h]

theorem run_succ (n : Nat) (s t : State) (h : step s = .next t) :
    Host.Core.run Sys2Proof.core (n + 1) s = Host.Core.run Sys2Proof.core n t :=
  core_run_succ_next Sys2Proof.core n s t h

/-- A run that goes on is its first step and the run of the rest. -/
theorem core_run_succ_cases (M : Host.Core) (n : Nat) (s t : M.State) (h : Host.Core.run M (n + 1) s = .next t) :
    ∃ u, M.step s = .next u ∧ Host.Core.run M n u = .next t := by
  rw [core_run_succ] at h
  split at h
  · exact ⟨_, ‹_›, h⟩
  · cases h
  · cases h

theorem run_succ_cases (n : Nat) (s t : State) (h : Host.Core.run Sys2Proof.core (n + 1) s = .next t) :
    ∃ u, step s = .next u ∧ Host.Core.run Sys2Proof.core n u = .next t :=
  core_run_succ_cases Sys2Proof.core n s t h

/-- Two runs, one after the other, are one run. -/
theorem run_add (a b : Nat) (s t : State) (h : Host.Core.run Sys2Proof.core a s = .next t) :
    Host.Core.run Sys2Proof.core (a + b) s = Host.Core.run Sys2Proof.core b t := by
  induction a generalizing s with
  | zero => cases h; rw [Nat.zero_add]
  | succ a ih =>
    obtain ⟨u, hu, hr⟩ := run_succ_cases a s t h
    rw [Nat.succ_add, run_succ _ s u hu, ih u hr]

end Sys2Proof.Machine
end

