-- ==== Sys2Proof/Tests/Slice0.lean ====
section
/-!
SUPPORT. The model's own tests: ill-formed terms that WellFormed refuses, a written-out word for every constructor,
the single-step vectors of spec/95_test_vectors.md (V<n>), a few of its assembler and host vectors, and one witness
for the hypotheses of every statement that has some.
-/

namespace Sys2Proof.Tests

open Sys2Proof.Machine Sys2Proof.Assembler

/-! ### Helpers -/

/-- A machine about to fetch: MEM_SIZE and STACK_LOW given, everything else as reset leaves it. -/
def machine (memSize stackLow : Nat) : State :=
  { State.resetWith { Config.standard with memSize := memSize, stackLow := stackLow } with status := .running }

/-- The default machine about to fetch. -/
def fresh : State := machine 256 0

/-- Bytes put at `pc`. -/
def code (s : State) (bytes : List Byte) : State := s.setMem (s.mem.load s.pc.toNat bytes)

/-- One byte put in memory. -/
def poke (s : State) (a : Nat) (v : Byte) : State := s.setMem (s.mem.write a v)

/-- The program counter moved. -/
def goTo (s : State) (pc : PcWord) : State := { s with pc := pc }

/-- The flags set. -/
def withFlags (s : State) (z g : Bool) : State := s.setFlags ⟨z, g⟩

/-- What one sees of the next state, if there is one. -/
def seen {α : Type} (f : State → α) : Result → Option α
  | .next t => some (f t)
  | .fault _ => none
  | .refused _ => none

/-- What one sees after one step. -/
def afterStep {α : Type} (f : State → α) (s : State) : Option α := seen f (step s)

/-- The state after an outcome that is a next state; else a state no test expects. -/
def stateOf : Result → State
  | .next t => t
  | .fault _ => State.reset
  | .refused _ => State.reset

/-! ### WellFormed refuses -/

/-- R53: the first register byte past the last register. -/
theorem test_wf_refuses_register_8 :
    (Instr.inc 8).wf = false := by decide

theorem test_wf_accepts_register_7 :
    (Instr.inc 7).wf = true := by decide

theorem test_wf_refuses_one_register :
    [Instr.inc 8, Instr.dec 8, Instr.push 8, Instr.pop 8, Instr.out 8, .movRI 8 0, .load 8 0, .store 8 0].all (fun i => i.wf == false) = true := by decide

theorem test_wf_refuses_first_of_two :
    [Instr.movRR 8 0, Instr.add 8 0, Instr.sub 8 0, Instr.mul 8 0, Instr.div 8 0, Instr.ldxi 8 0, Instr.stxi 8 0, Instr.cmp 8 0].all (fun i => i.wf == false) = true := by decide

theorem test_wf_refuses_second_of_two :
    [Instr.movRR 0 8, Instr.add 0 8, Instr.sub 0 8, Instr.mul 0 8, Instr.div 0 8, Instr.ldxi 0 8, Instr.stxi 0 8, Instr.cmp 0 8].all (fun i => i.wf == false) = true := by decide

theorem test_wf_ignores_addresses_and_immediates :
    (Instr.movRI 7 255).wf && (Instr.load 7 255).wf && (Instr.jmp 255).wf && (Instr.call 255).wf = true := by decide

/-- R56: HLT already has 0x1A. -/
theorem test_wf_refuses_a_byte_assigned_twice :
    OpcodeMap.wf { OpcodeMap.standard with nop := 0x1A } = false := by decide

theorem test_wf_accepts_another_injective_map :
    OpcodeMap.wf { OpcodeMap.standard with nop := 0x00, inc := 0xFF } = true := by decide

theorem test_wf_refuses_mem_size_0 :
    Config.wf { Config.standard with memSize := 0 } = false := by decide

theorem test_wf_refuses_mem_size_257 :
    Config.wf { Config.standard with memSize := 257 } = false := by decide

theorem test_wf_refuses_stack_low_above_sp_init :
    Config.wf { Config.standard with memSize := 16, stackLow := 16 } = false := by decide

theorem test_wf_refuses_a_bad_map :
    Config.wf { Config.standard with opcodeMap := { OpcodeMap.standard with nop := 0x1A } } = false := by decide

theorem test_wf_accepts_the_edges :
    Config.wf { Config.standard with memSize := 1 } && Config.wf { Config.standard with stackLow := 255 } = true := by decide

/-! ### A word of every constructor, written out from R52 and R56 -/

theorem test_decode_format_n :
    [ decode .standard [0x18, 0x1A],
      decode .standard [0x1A, 0x1A],
      decode .standard [0x1B, 0x1A] ].map (fun r => r.toOption) =
    [ some (.ret, [0x1A]), some (.hlt, [0x1A]), some (.nop, [0x1A]) ] := by decide

theorem test_decode_format_r :
    [ decode .standard [0x01, 0x03, 0x1A],
      decode .standard [0x02, 0x07, 0x1A],
      decode .standard [0x15, 0x01, 0x1A],
      decode .standard [0x16, 0x02, 0x1A],
      decode .standard [0x19, 0x04, 0x1A] ].map (fun r => r.toOption) =
    [ some (.inc 3, [0x1A]), some (.dec 7, [0x1A]), some (.push 1, [0x1A]), some (.pop 2, [0x1A]), some (.out 4, [0x1A]) ] := by decide

theorem test_decode_format_a :
    [ decode .standard [0x0E, 0x10, 0x1A],
      decode .standard [0x0F, 0x30, 0x1A],
      decode .standard [0x10, 0x31, 0x1A],
      decode .standard [0x11, 0x32, 0x1A],
      decode .standard [0x12, 0x33, 0x1A],
      decode .standard [0x13, 0x34, 0x1A],
      decode .standard [0x14, 0x35, 0x1A],
      decode .standard [0x17, 0x36, 0x1A] ].map (fun r => r.toOption) =
    [ some (.jmp 0x10, [0x1A]), some (.jeq 0x30, [0x1A]), some (.jne 0x31, [0x1A]), some (.jgt 0x32, [0x1A]), some (.jlt 0x33, [0x1A]), some (.jle 0x34, [0x1A]), some (.jge 0x35, [0x1A]), some (.call 0x36, [0x1A]) ] := by decide

theorem test_decode_format_rr :
    [ decode .standard [0x04, 0x01, 0x00, 0x1A],
      decode .standard [0x05, 0x02, 0x03, 0x1A],
      decode .standard [0x06, 0x04, 0x05, 0x1A],
      decode .standard [0x07, 0x06, 0x07, 0x1A],
      decode .standard [0x08, 0x01, 0x02, 0x1A],
      decode .standard [0x0B, 0x03, 0x04, 0x1A],
      decode .standard [0x0C, 0x05, 0x06, 0x1A],
      decode .standard [0x0D, 0x07, 0x00, 0x1A] ].map (fun r => r.toOption) =
    [ some (.movRR 1 0, [0x1A]), some (.add 2 3, [0x1A]), some (.sub 4 5, [0x1A]), some (.mul 6 7, [0x1A]), some (.div 1 2, [0x1A]), some (.ldxi 3 4, [0x1A]), some (.stxi 5 6, [0x1A]), some (.cmp 7 0, [0x1A]) ] := by decide

theorem test_decode_format_ri_ra :
    [ decode .standard [0x03, 0x02, 0xFF, 0x1A],
      decode .standard [0x09, 0x02, 0x50, 0x1A],
      decode .standard [0x0A, 0x01, 0x60, 0x1A] ].map (fun r => r.toOption) =
    [ some (.movRI 2 0xFF, [0x1A]), some (.load 2 0x50, [0x1A]), some (.store 1 0x60, [0x1A]) ] := by decide

/-- R53: the decoder selects; execution checks the register byte. -/
theorem test_decode_keeps_a_bad_register_byte :
    (decode .standard [0x05, 0x00, 0x08]).toOption = some (.add 0 8, []) := by decide

theorem test_decode_refuses_by_name :
    (decode .standard [], decode .standard [0x00], decode .standard [0x1C, 0, 0], decode .standard [0x05, 0x00]) =
    (.error .noOpcode, .error .unknownOpcode, .error .unknownOpcode, .error .truncated) := rfl

/-- D1: the map is a parameter. -/
theorem test_decode_under_another_map :
    (decode { OpcodeMap.standard with nop := 0x00 } [0x00]).toOption = some (.nop, []) := by decide

/-- Bit 0 is the least significant bit of the first byte; the bits above nbits are 0. -/
theorem test_table_word :
    (decodeTableWord 24 0x500209, decodeTableWord 8 0x1A, decodeTableWord 8 0x05, decodeTableWord 8 0xFF) =
    (some (.load 2 0x50), some .hlt, some (.add 0 0), none) := by decide

theorem test_with_fetch_word :
    afterStep (fun t => (t.reg 2, t.pc, t.steps)) (State.reset.withFetchWord 24 0xAB0203) = some (0xAB, 3, 1) := by decide

/-! ### Single steps (95_test_vectors.md section 2; the numbers are its) -/

/-- V1 -/
theorem test_inc_wraps :
    afterStep (fun t => (t.reg 3, t.pc, t.steps)) (code (fresh.setReg 3 0xFF) [0x01, 0x03]) = some (0x00, 2, 1) := by decide

/-- V20 -/
theorem test_inc_register_ff :
    afterStep (fun t => (t.status, t.pc, t.steps)) (code fresh [0x01, 0xFF]) = some (.faulted .invalidRegister, 0, 0) := by decide

/-- V3 -/
theorem test_dec_wraps :
    afterStep (fun t => (t.reg 0, t.pc)) (code fresh [0x02, 0x00]) = some (0xFF, 2) := by decide

/-- V4 -/
theorem test_dec_to_zero_sets_no_flag :
    afterStep (fun t => (t.reg 7, t.flags)) (code (fresh.setReg 7 1) [0x02, 0x07]) = some (0, ⟨false, false⟩) := by decide

/-- V5 -/
theorem test_add_wraps :
    afterStep (fun t => (t.reg 0, t.reg 1, t.pc)) (code ((fresh.setReg 0 0xC8).setReg 1 0x64) [0x05, 0x00, 0x01]) = some (0x2C, 0x64, 3) := by decide

/-- V6 -/
theorem test_add_doubles :
    afterStep (fun t => (t.reg 2)) (code (fresh.setReg 2 0x90) [0x05, 0x02, 0x02]) = some 0x20 := by decide

/-- V7 -/
theorem test_sub_borrows :
    afterStep (fun t => (t.reg 2, t.pc)) (code ((fresh.setReg 2 5).setReg 3 0x0A) [0x06, 0x02, 0x03]) = some (0xFB, 3) := by decide

/-- V8 -/
theorem test_sub_itself :
    afterStep (fun t => (t.reg 4)) (code (fresh.setReg 4 0x77) [0x06, 0x04, 0x04]) = some 0 := by decide

/-- V9 -/
theorem test_mul_keeps_the_low_byte :
    afterStep (fun t => (t.reg 0, t.reg 1)) (code ((fresh.setReg 0 0x14).setReg 1 0x0D) [0x07, 0x00, 0x01]) = some (0x04, 0x0D) := by decide

/-- V10 -/
theorem test_mul_largest :
    afterStep (fun t => (t.reg 0, t.pc)) (code ((fresh.setReg 0 0xFF).setReg 1 0xFF) [0x07, 0x00, 0x01]) = some (0x01, 3) := by decide

/-- V12 -/
theorem test_div_rounds_down :
    afterStep (fun t => (t.reg 0, t.reg 1)) (code ((fresh.setReg 0 7).setReg 1 2) [0x08, 0x00, 0x01]) = some (3, 2) := by decide

/-- V15 -/
theorem test_div_by_zero :
    afterStep (fun t => (t.status, t.reg 0, t.pc, t.steps)) (code (fresh.setReg 0 9) [0x08, 0x00, 0x01]) = some (.faulted .divisionByZero, 9, 0, 0) := by decide

/-- V22 -/
theorem test_mov_immediate_is_no_register :
    afterStep (fun t => (t.reg 7, t.pc)) (code fresh [0x03, 0x07, 0xFF]) = some (0xFF, 3) := by decide

/-- V23 -/
theorem test_mov_immediate_bad_register :
    afterStep (fun t => (t.status)) (code fresh [0x03, 0x08, 0x00]) = some (.faulted .invalidRegister) := by decide

/-- V24 -/
theorem test_mov_register :
    afterStep (fun t => (t.reg 1, t.reg 0, t.pc)) (code (fresh.setReg 0 0x2A) [0x04, 0x01, 0x00]) = some (0x2A, 0x2A, 3) := by decide

/-- V26 -/
theorem test_mov_register_bad_source :
    afterStep (fun t => (t.status)) (code fresh [0x04, 0x01, 0x08]) = some (.faulted .invalidRegister) := by decide

/-- V30 -/
theorem test_load_out_of_bounds :
    afterStep (fun t => (t.status, t.pc)) (code (machine 128 0) [0x09, 0x00, 0x80]) = some (.faulted .outOfBounds, 0) := by decide

/-- V31 -/
theorem test_load_last_cell :
    afterStep (fun t => (t.reg 0, t.pc)) (code (poke (machine 128 0) 0x7F 0x11) [0x09, 0x00, 0x7F]) = some (0x11, 3) := by decide

/-- V33 -/
theorem test_store_over_its_own_operand :
    afterStep (fun t => (t.mem.read 2, t.reg 0, t.pc)) (code (fresh.setReg 0 0xEE) [0x0A, 0x00, 0x02]) = some (0xEE, 0xEE, 3) := by decide

/-- V35 -/
theorem test_store_bad_register_beats_bad_address :
    afterStep (fun t => (t.status)) (code (machine 16 0) [0x0A, 0x08, 0x10]) = some (.faulted .invalidRegister) := by decide

/-- V37 -/
theorem test_ldxi_same_register :
    afterStep (fun t => (t.reg 3, t.pc)) (code (poke (fresh.setReg 3 0x60) 0x60 0xAB) [0x0B, 0x03, 0x03]) = some (0xAB, 3) := by decide

/-- V38 -/
theorem test_ldxi_out_of_bounds :
    afterStep (fun t => (t.status)) (code ((machine 64 0).setReg 1 0x40) [0x0B, 0x00, 0x01]) = some (.faulted .outOfBounds) := by decide

/-- V39 -/
theorem test_stxi :
    afterStep (fun t => (t.mem.read 0x60, t.reg 1, t.pc)) (code ((fresh.setReg 0 0xAB).setReg 1 0x60) [0x0C, 0x00, 0x01]) = some (0xAB, 0x60, 3) := by decide

/-- V41 -/
theorem test_stxi_out_of_bounds :
    afterStep (fun t => (t.status, t.mem.read 0xFF)) (code ((machine 64 0).setReg 1 0xFF) [0x0C, 0x00, 0x01]) = some (.faulted .outOfBounds, 0) := by decide

/-- V45 -/
theorem test_cmp_is_unsigned :
    afterStep (fun t => (t.flags, t.pc)) (code ((fresh.setReg 0 0x80).setReg 1 0x7F) [0x0D, 0x00, 0x01]) = some (⟨false, true⟩, 3) := by decide

/-- V46 -/
theorem test_cmp_replaces_both_flags :
    afterStep (fun t => (t.flags)) (code (withFlags (fresh.setReg 2 0xFF) false true) [0x0D, 0x02, 0x02]) = some ⟨true, false⟩ := by decide

/-- V51 -/
theorem test_jmp_beyond_memory :
    afterStep (fun t => (t.status, t.pc)) (code (machine 16 0) [0x0E, 0x80]) = some (.running, 0x80) := by decide

/-- V50 -/
theorem test_jmp_to_itself :
    afterStep (fun t => (t.pc, t.steps)) (code (goTo fresh 4) [0x0E, 0x04]) = some (4, 1) := by decide

/-- V52, V53, V54: after equal, greater, less. -/
theorem test_jeq_on_every_flag_state :
    [(true, false), (false, true), (false, false)].map (fun f =>
      afterStep (fun t => t.pc) (code (withFlags (goTo fresh 0x10) f.1 f.2) [0x0F, 0x30])) =
    [some 0x30, some 0x12, some 0x12] := by decide

/-- V55, V56, V57: after equal, greater, less. -/
theorem test_jne_on_every_flag_state :
    [(true, false), (false, true), (false, false)].map (fun f =>
      afterStep (fun t => t.pc) (code (withFlags (goTo fresh 0x10) f.1 f.2) [0x10, 0x30])) =
    [some 0x12, some 0x30, some 0x30] := by decide

/-- V58, V59, V60: after equal, greater, less. -/
theorem test_jgt_on_every_flag_state :
    [(true, false), (false, true), (false, false)].map (fun f =>
      afterStep (fun t => t.pc) (code (withFlags (goTo fresh 0x10) f.1 f.2) [0x11, 0x30])) =
    [some 0x12, some 0x30, some 0x12] := by decide

/-- V61, V62, V63: after equal, greater, less. -/
theorem test_jlt_on_every_flag_state :
    [(true, false), (false, true), (false, false)].map (fun f =>
      afterStep (fun t => t.pc) (code (withFlags (goTo fresh 0x10) f.1 f.2) [0x12, 0x30])) =
    [some 0x12, some 0x12, some 0x30] := by decide

/-- V64, V65, V66: after equal, greater, less. -/
theorem test_jle_on_every_flag_state :
    [(true, false), (false, true), (false, false)].map (fun f =>
      afterStep (fun t => t.pc) (code (withFlags (goTo fresh 0x10) f.1 f.2) [0x13, 0x30])) =
    [some 0x30, some 0x12, some 0x30] := by decide

/-- V67, V68, V69: after equal, greater, less. -/
theorem test_jge_on_every_flag_state :
    [(true, false), (false, true), (false, false)].map (fun f =>
      afterStep (fun t => t.pc) (code (withFlags (goTo fresh 0x10) f.1 f.2) [0x14, 0x30])) =
    [some 0x30, some 0x30, some 0x12] := by decide

/-- V74 -/
theorem test_push_into_the_last_free_cell :
    afterStep (fun t => (t.mem.read 1, t.sp, t.pc)) (code ((fresh.setReg 1 0xAA).setSp 1) [0x15, 0x01]) = some (0xAA, 0, 2) := by decide

/-- V77 -/
theorem test_push_on_a_full_stack :
    afterStep (fun t => (t.status, t.mem.read 0x80, t.sp)) (code (((machine 256 0x80).setReg 0 1).setSp 0x80) [0x15, 0x00]) = some (.faulted .stackOverflow, 0, 0x80) := by decide

/-- V79 -/
theorem test_pop :
    afterStep (fun t => (t.reg 1, t.sp, t.mem.read 0xFF, t.pc)) (code ((poke fresh 0xFF 7).setSp 0xFE) [0x16, 0x01]) = some (7, 0xFF, 7, 2) := by decide

/-- V80 -/
theorem test_pop_on_an_empty_stack :
    afterStep (fun t => (t.status, t.reg 1)) (code (fresh.setReg 1 0x33) [0x16, 0x01]) = some (.faulted .stackUnderflow, 0x33) := by decide

/-- V85 -/
theorem test_call_return_address_ff_fits :
    afterStep (fun t => (t.mem.read 0x80, t.sp, t.pc)) (code ((goTo fresh 0xFD).setSp 0x80) [0x17, 0x10]) = some (0xFF, 0x7F, 0x10) := by decide

/-- V86 -/
theorem test_call_return_address_256 :
    afterStep (fun t => (t.status, t.sp, t.pc)) (code ((goTo fresh 0xFE).setSp 0x80) [0x17, 0x10]) = some (.faulted .outOfBounds, 0x80, 0xFE) := by decide

/-- V90 -/
theorem test_ret_takes_the_byte_on_top :
    afterStep (fun t => (t.pc, t.sp)) (code (goTo ((poke (poke fresh 0xFE 0x77) 0xFF 4).setSp 0xFD) 0x10) [0x18]) = some (0x77, 0xFE) := by decide

/-- V89 -/
theorem test_ret_on_an_empty_stack :
    afterStep (fun t => (t.status, t.pc)) (code (goTo fresh 0x10) [0x18]) = some (.faulted .stackUnderflow, 0x10) := by decide

/-- V91, with a byte already emitted -/
theorem test_out_appends :
    afterStep (fun t => (t.out, t.pc)) (code ((fresh.emit 3).setReg 0 0x0A) [0x19, 0x00]) = some ([3, 0x0A], 2) := by decide

/-- V92 -/
theorem test_out_bad_register_emits_nothing :
    afterStep (fun t => (t.status, t.out)) (code fresh [0x19, 0x08]) = some (.faulted .invalidRegister, []) := by decide

/-- V94 -/
theorem test_hlt_in_the_last_cell :
    afterStep (fun t => (t.status, t.pc, t.steps)) (code (goTo fresh 0xFF) [0x1A]) = some (.halted, 256, 1) := by decide

/-- V95 -/
theorem test_nop :
    afterStep (fun t => (t.pc, t.steps)) (code (goTo fresh 5) [0x1B]) = some (6, 1) := by decide

/-- V106 -/
theorem test_nop_in_the_last_cell :
    afterStep (fun t => (t.pc, t.status)) (code (goTo fresh 0xFF) [0x1B]) = some (256, .running) := by decide

/-- V97 -/
theorem test_fetch_unknown_opcode :
    afterStep (fun t => (t.status, t.pc)) (code fresh [0x1C, 0x00, 0x00]) = some (.faulted .unknownOpcode, 0) := by decide

/-- V99 -/
theorem test_fetch_at_mem_size :
    afterStep (fun t => (t.status, t.pc)) (goTo (machine 16 0) 0x10) = some (.faulted .outOfBounds, 0x10) := by decide

/-- V105 -/
theorem test_missing_operand_beats_bad_register :
    afterStep (fun t => (t.status)) (code (goTo fresh 0xFE) [0x05, 0x09]) = some (.faulted .outOfBounds) := by decide

/-- V103 -/
theorem test_three_bytes_ending_in_the_last_cell :
    afterStep (fun t => (t.reg 0, t.pc)) (code (goTo fresh 0xFD) [0x03, 0x00, 0x09]) = some (9, 256) := by decide

/-! ### Host operations (95_test_vectors.md section 2.8) -/

/-- V108, at MEM_SIZE = 1. -/
theorem test_load_limit_is_mem_size :
    (seen (fun t => t.mem.read 0) (loadProgram [0x1B] (State.resetWith { Config.standard with memSize := 1 })),
      match loadProgram [0x1B, 0x1B] (State.resetWith { Config.standard with memSize := 1 }) with
      | .fault k => some k
      | _ => none) =
    (some 0x1B, some .outOfBounds) := by decide

/-- V109 -/
theorem test_empty_program :
    seen (fun t => (t.status, t.pc, t.steps)) (boot .standard [] 1) = some (.faulted .unknownOpcode, 0, 0) := by decide

/-- V112 -/
theorem test_step_limit_4 :
    seen (fun t => (t.status, t.pc, t.out, t.steps))
      (boot { Config.standard with stepLimit := some 4 } [0x03, 0x00, 0x01, 0x19, 0x00, 0x0E, 0x03] 5) =
    some (.stepLimit, 5, [1, 1], 4) := by decide

/-- V114 -/
theorem test_halt_as_the_last_allowed_instruction :
    seen (fun t => (t.status, t.pc, t.steps)) (boot { Config.standard with stepLimit := some 2 } [0x1B, 0x1A] 3) =
    some (.halted, 2, 2) := by decide

/-- R188 (illustrative), R151. -/
theorem test_status_codes :
    [Status.ready, .running, .halted, .stepLimit, .faulted .stackUnderflow].map Status.code = [0, 7, 8, 9, 6] := by decide

/-! ### The assembler (95_test_vectors.md section 2.9) -/

/-- V121 -/
theorem test_asm_forward_reference :
    (assemble .standard "JMP end\nNOP\nend: HLT".toList).toOption = some [0x0E, 3, 0x1B, 0x1A] := by decide

/-- V124 -/
theorem test_asm_mov_form_and_literals :
    (assemble .standard "MOV r1, r0\nMOV r1, 0x10\nMOV r1, 0XfF\nMOV r1, 010".toList).toOption = some [4, 1, 0, 3, 1, 0x10, 3, 1, 0xFF, 3, 1, 0x0A] := by decide

/-- V125 -/
theorem test_asm_label_after_the_last_instruction :
    (assemble .standard "LOAD r0, data\nSTORE r0, 0x50\nHLT\ndata:".toList).toOption = some [9, 0, 7, 0x0A, 0, 0x50, 0x1A] := by decide

/-- V126 -/
theorem test_asm_blanks_and_comments :
    (assemble .standard "loop : NOP\n  JMP   loop   ; back".toList).toOption = some [0x1B, 0x0E, 0] := by decide

/-- V128 -/
theorem test_asm_crlf :
    (assemble .standard "NOP\r\nHLT\r\n".toList).toOption = some [0x1B, 0x1A] := by decide

/-- R121, D23: at the end of the text, twice, and before a blank. -/
theorem test_asm_carriage_return_is_white_space :
    (assemble .standard "NOP\r\r\nINC\rr1 \r \nHLT\r".toList).toOption = some [0x1B, 1, 1, 0x1A] := by decide

/-- V130 -/
theorem test_asm_lower_case_mnemonic :
    assemble .standard "mov r0, 1".toList = .error ⟨.unknownMnemonic, 1, "mov".toList⟩ := by decide

/-- V134 -/
theorem test_asm_duplicate_label :
    assemble .standard "a: NOP\na: HLT".toList = .error ⟨.duplicateLabel, 2, "a".toList⟩ := by decide

/-- V136 -/
theorem test_asm_too_few_operands :
    assemble .standard "ADD r0".toList = .error ⟨.invalidOperand, 1, "ADD".toList⟩ := by decide

/-- V147 -/
theorem test_asm_undefined_label :
    assemble .standard "Loop: NOP\nJMP loop".toList = .error ⟨.undefinedLabel, 2, "loop".toList⟩ := by decide

/-- V144 -/
theorem test_asm_pass_one_error_first :
    assemble .standard "MOV r0, 300\nFOO r1".toList = .error ⟨.unknownMnemonic, 2, "FOO".toList⟩ := by decide

/-- V145 -/
theorem test_asm_two_labels_on_a_line :
    assemble .standard "JMP x ; c\nx: y: HLT".toList = .error ⟨.unknownMnemonic, 2, "y:".toList⟩ := by decide

/-! ### Witnesses: concrete states and operands that meet the hypotheses of each statement, at the edges of their ranges -/

/-- The bytes 8 (no register) and 7 (the last register), and a program counter of 256, the largest. -/
abbrev RegisterBoundaries : Prop :=
  8 ≤ (8 : Byte).toNat ∧ (7 : Byte).toNat = (7 : RegIdx).val ∧ (0 : Byte).toNat = (0 : RegIdx).val ∧
    (goTo fresh 256).pc.toNat ≤ 256

theorem register_boundaries : RegisterBoundaries := by decide

/-- An opcode in the last cell that leaves room for all its operand bytes but one (or for none). -/
def lastCell (k : Opcode) : State :=
  code (goTo fresh (BitVec.ofNat 9 (256 - max 1 k.operandCount))) [OpcodeMap.standard.byteOf k]

/-- The hypotheses of `TruncatedFetchFaults`, at that state. -/
abbrev TruncatedWitness (k : Opcode) : Prop :=
  (lastCell k).AboutToFetch ∧ (lastCell k).cfg.wf = true ∧ (lastCell k).pc.toNat < (lastCell k).cfg.memSize ∧
    (lastCell k).mem.read (lastCell k).pc.toNat = (lastCell k).cfg.opcodeMap.byteOf k ∧
    (lastCell k).cfg.memSize - 1 < (lastCell k).pc.toNat + k.operandCount

/-- The hypotheses of `OneByteFetchRuns`, at that state. -/
abbrev OneByteWitness (k : Opcode) : Prop :=
  (lastCell k).AboutToFetch ∧ (lastCell k).cfg.wf = true ∧ (lastCell k).pc.toNat < (lastCell k).cfg.memSize ∧
    (lastCell k).mem.read (lastCell k).pc.toNat = (lastCell k).cfg.opcodeMap.byteOf k

/-- A state with a 16-byte memory whose stack holds one byte, one cell above STACK_LOW = 13: neither empty nor full. -/
def midStack : State := poke ((machine 16 13).setSp 14) 15 0x42

theorem midStack_inv : midStack.Inv :=
  ⟨by decide, by decide, by decide, by decide, by decide, by decide, by decide⟩

theorem fresh_inv : fresh.Inv :=
  ⟨by decide, by decide, by decide, by decide, by decide, by decide, by decide⟩

theorem fresh_faultFree : fresh.FaultFree := by intro k h; cases h

theorem witness_IncAddsOneModulo256 :
    RegisterBoundaries ∧ TruncatedWitness .inc := by decide

theorem witness_DecSubtractsOneModulo256 :
    RegisterBoundaries ∧ TruncatedWitness .dec := by decide

theorem witness_AddWritesSumModulo256 :
    RegisterBoundaries ∧ TruncatedWitness .add := by decide

theorem witness_SubWritesDifferenceModulo256 :
    RegisterBoundaries ∧ TruncatedWitness .sub := by decide

theorem witness_MulWritesLowByteOfProduct :
    RegisterBoundaries ∧ TruncatedWitness .mul := by decide

theorem witness_MovImmediateWritesTheByte :
    RegisterBoundaries ∧ TruncatedWitness .movRI := by decide

theorem witness_MovRegisterCopiesTheSource :
    RegisterBoundaries ∧ TruncatedWitness .movRR := by decide

theorem witness_CompareWritesBothFlags :
    RegisterBoundaries ∧ TruncatedWitness .cmp := by decide

theorem witness_OutAppendsTheRegister :
    RegisterBoundaries ∧ TruncatedWitness .out := by decide

theorem witness_DivWritesFloorOrFaultsOnZero :
    RegisterBoundaries ∧ fresh.reg 7 = 0 ∧ (fresh.setReg 7 1).reg 7 ≠ 0 ∧ TruncatedWitness .div := by decide

theorem witness_LoadReadsTheDirectAddress :
    RegisterBoundaries ∧ (machine 255 0).cfg.memSize ≤ directAddress 255 ∧ directAddress 255 < fresh.cfg.memSize ∧
      TruncatedWitness .load := by decide

theorem witness_LdxiReadsTheAddressInARegister :
    RegisterBoundaries ∧ (machine 255 0).cfg.memSize ≤ ((machine 255 0).setReg 7 255).indirectAddress 7 ∧
      (fresh.setReg 7 255).indirectAddress 7 < fresh.cfg.memSize ∧ TruncatedWitness .ldxi := by decide

theorem witness_StoreWritesTheDirectAddress :
    RegisterBoundaries ∧ (machine 255 0).cfg.memSize ≤ directAddress 255 ∧ directAddress 255 < fresh.cfg.memSize ∧
      (poke fresh 255 1).mem.wf = true ∧ TruncatedWitness .store := by decide

theorem witness_StxiWritesTheAddressInARegister :
    RegisterBoundaries ∧ (machine 255 0).cfg.memSize ≤ ((machine 255 0).setReg 7 255).indirectAddress 7 ∧
      (fresh.setReg 7 255).indirectAddress 7 < fresh.cfg.memSize ∧ (poke fresh 255 1).mem.wf = true ∧
      TruncatedWitness .stxi := by decide

theorem witness_JmpGoesToTheAddress :
    TruncatedWitness .jmp := by decide

theorem witness_JeqJumpsWhenZ :
    (goTo fresh 256).pc.toNat ≤ 256 ∧ TruncatedWitness .jeq := by decide

theorem witness_JneJumpsWhenNotZ :
    (goTo fresh 256).pc.toNat ≤ 256 ∧ TruncatedWitness .jne := by decide

theorem witness_JgtJumpsWhenG :
    (goTo fresh 256).pc.toNat ≤ 256 ∧ TruncatedWitness .jgt := by decide

theorem witness_JltJumpsWhenNeitherFlag :
    (goTo fresh 256).pc.toNat ≤ 256 ∧ TruncatedWitness .jlt := by decide

theorem witness_JleJumpsWhenNotG :
    (goTo fresh 256).pc.toNat ≤ 256 ∧ TruncatedWitness .jle := by decide

theorem witness_JgeJumpsWhenEitherFlag :
    (goTo fresh 256).pc.toNat ≤ 256 ∧ TruncatedWitness .jge := by decide

theorem witness_PushStoresBelowAndMovesDown :
    midStack.Inv ∧ midStack.sp.toNat ≠ midStack.cfg.stackLow ∧ (midStack.setSp 13).sp.toNat = midStack.cfg.stackLow ∧
      RegisterBoundaries ∧ TruncatedWitness .push :=
  ⟨midStack_inv, by decide, by decide, by decide, by decide⟩

theorem witness_PopReadsAboveAndMovesUp :
    midStack.Inv ∧ midStack.sp.toNat ≠ midStack.cfg.memSize - 1 ∧ (midStack.setSp 15).sp.toNat = midStack.cfg.memSize - 1 ∧
      RegisterBoundaries ∧ TruncatedWitness .pop :=
  ⟨midStack_inv, by decide, by decide, by decide, by decide⟩

theorem witness_CallPushesTheReturnAddress :
    (goTo fresh 253).Inv ∧ (goTo fresh 253).sp.toNat ≠ fresh.cfg.stackLow ∧ (goTo fresh 253).pc.toNat + 2 ≤ 255 ∧
      255 < (goTo fresh 254).pc.toNat + 2 ∧ (fresh.setSp 0).sp.toNat = fresh.cfg.stackLow ∧ TruncatedWitness .call :=
  ⟨⟨by decide, by decide, by decide, by decide, by decide, by decide, by decide⟩,
    by decide, by decide, by decide, by decide, by decide⟩

theorem witness_RetPopsTheProgramCounter :
    midStack.Inv ∧ midStack.sp.toNat ≠ midStack.cfg.memSize - 1 ∧ fresh.sp.toNat = fresh.cfg.memSize - 1 ∧
      OneByteWitness .ret :=
  ⟨midStack_inv, by decide, by decide, by decide⟩

theorem witness_HltEndsTheRun :
    OneByteWitness .hlt := by decide

theorem witness_NopOnlyAdvances :
    (goTo fresh 256).pc.toNat ≤ 256 ∧ OneByteWitness .nop := by decide

theorem witness_FetchChecksComeInOrder :
    (goTo fresh 256).AboutToFetch ∧ fresh.cfg.wf = true ∧ fresh.cfg.memSize ≤ (goTo fresh 256).pc.toNat ∧
      (code (goTo fresh 255) [0x1C]).AboutToFetch ∧ (∀ k, OpcodeMap.standard.byteOf k ≠ (code (goTo fresh 255) [0x1C]).mem.read 255) ∧ TruncatedWitness .add ∧
      OneByteWitness .nop :=
  ⟨by decide, by decide, by decide, by decide, fun k => by cases k <;> decide, by decide, by decide⟩

theorem witness_StepRunsTheDecodedInstruction :
    (lastCell .nop).AboutToFetch ∧
      decode (lastCell .nop).cfg.opcodeMap (lastCell .nop).window = .ok (.nop, []) :=
  ⟨by decide, rfl⟩

theorem witness_TheBytesOfAnInstructionRunIt :
    (code (goTo fresh 253) [0x03, 0x07, 0xFF]).AboutToFetch ∧ fresh.cfg.wf = true ∧
      253 + (encode fresh.cfg.opcodeMap (.movRI 7 0xFF)).length ≤ fresh.cfg.memSize ∧
      ∀ n (h : n < (encode fresh.cfg.opcodeMap (.movRI 7 0xFF)).length),
        (code (goTo fresh 253) [0x03, 0x07, 0xFF]).mem.read (253 + n) = (encode fresh.cfg.opcodeMap (.movRI 7 0xFF))[n] := by decide

theorem witness_DecodeOfEncodeIsTheInstruction :
    OpcodeMap.standard.wf = true ∧ OpcodeMap.wf { OpcodeMap.standard with inc := 0xFF, nop := 0 } = true := by decide

theorem witness_EncodeOfDecodedIsTheBytes :
    decode .standard [0x0A, 0xFF, 0x50, 0x1A] = .ok (.store 0xFF 0x50, [0x1A]) := rfl

theorem witness_UnassignedOpcodesAreUnknown :
    (∀ k, OpcodeMap.standard.byteOf k ≠ 0x1C) ∧ (∀ k, OpcodeMap.standard.byteOf k ≠ 0) ∧
      (code fresh [0x1C]).AboutToFetch ∧ (code fresh [0x1C]).pc.toNat < fresh.cfg.memSize ∧
      ∀ k, (code fresh [0x1C]).cfg.opcodeMap.byteOf k ≠ (code fresh [0x1C]).mem.read (code fresh [0x1C]).pc.toNat :=
  ⟨fun k => by cases k <;> decide, fun k => by cases k <;> decide, by decide, by decide, fun k => by cases k <;> decide⟩

theorem witness_StepKeepsInvariant :
    construct { Config.standard with memSize := 1 } = .next (State.resetWith { Config.standard with memSize := 1 }) ∧
      State.reset.Inv ∧ loadProgram [0x1A] State.reset = .next (stateOf (loadProgram [0x1A] State.reset)) ∧
      (code midStack [0x15, 7]).Inv ∧ step (code midStack [0x15, 7]) = .next (stateOf (step (code midStack [0x15, 7]))) ∧
      (fresh.setStatus .halted).status.terminal = true :=
  ⟨rfl, ⟨by decide, by decide, by decide, by decide, by decide, by decide, by decide⟩, rfl,
    ⟨by decide, by decide, by decide, by decide, by decide, by decide, by decide⟩, rfl, rfl⟩

theorem witness_ResetPutsEveryFieldAtItsValue :
    Config.wf { Config.standard with memSize := 1 } = true ∧ Config.wf { Config.standard with stackLow := 255 } = true ∧
      0 < 1 ∧ 256 < 257 ∧ ({ Config.standard with stackLow := 256 } : Config).memSize - 1 < 256 ∧ Opcode.hlt ≠ .nop ∧
      OpcodeMap.byteOf { OpcodeMap.standard with nop := 0x1A } .hlt = OpcodeMap.byteOf { OpcodeMap.standard with nop := 0x1A } .nop := by decide

theorem witness_FaultsArePrecise :
    fresh.FaultFree ∧ exec (.div 0 7) fresh = .next (stateOf (exec (.div 0 7) fresh)) ∧
      (stateOf (exec (.div 0 7) fresh)).status = .faulted .divisionByZero ∧
      step fresh = .next (stateOf (step fresh)) ∧ (stateOf (step fresh)).status = .faulted .unknownOpcode :=
  ⟨fresh_faultFree, rfl, by decide, rfl, by decide⟩

theorem witness_TerminalStatusesAreFinal :
    (fresh.setStatus (.faulted .stackOverflow)).status.terminal = true ∧
      EndsRun (code fresh [0x1A]) (stateOf (step (code fresh [0x1A]))) :=
  ⟨rfl, 1, rfl, rfl⟩

theorem witness_OnlyCompareWritesFlags :
    exec (.sub 7 7) (withFlags fresh false true) = .next (stateOf (exec (.sub 7 7) (withFlags fresh false true))) ∧
      ∀ x y, Instr.sub 7 7 ≠ .cmp x y :=
  ⟨rfl, fun _ _ h => by cases h⟩

theorem witness_InvalidRegisterExactlyOnBadBytes :
    (Instr.cmp 7 8).wf = false ∧ (Instr.cmp 7 7).wf = true ∧ fresh.FaultFree ∧
      exec (.cmp 7 7) fresh = .next (stateOf (exec (.cmp 7 7) fresh)) :=
  ⟨rfl, rfl, fresh_faultFree, rfl⟩

theorem witness_FaultsFollowTheTable :
    fresh.Inv ∧ fresh.FaultFree ∧ exec (.pop 7) fresh = .next (stateOf (exec (.pop 7) fresh)) ∧
      (stateOf (exec (.pop 7) fresh)).status = .faulted .stackUnderflow ∧
      (goTo fresh 254).Inv ∧ (goTo fresh 254).FaultFree ∧
      exec (.call 0) (goTo fresh 254) = .next (stateOf (exec (.call 0) (goTo fresh 254))) ∧
      (stateOf (exec (.call 0) (goTo fresh 254))).status = .faulted .outOfBounds ∧ (goTo fresh 254).cfg.memSize = 256 :=
  ⟨fresh_inv, fresh_faultFree, rfl, by decide,
    ⟨by decide, by decide, by decide, by decide, by decide, by decide, by decide⟩, (fun k h => by cases h), rfl, by decide, rfl⟩

theorem witness_MemoryChangesOnlyWhereStored :
    exec (.store 7 255) (fresh.setReg 7 1) = .next (stateOf (exec (.store 7 255) (fresh.setReg 7 1))) ∧
      (stateOf (exec (.store 7 255) (fresh.setReg 7 1))).mem.read 255 ≠ (fresh.setReg 7 1).mem.read 255 :=
  ⟨rfl, by decide⟩

theorem witness_CanonicalMemoriesAreTheirBytes :
    ((Memory.empty.write 9 2).write 0 3).wf = true ∧ (((Memory.empty.write 0 3).write 9 1).write 9 2).wf = true ∧
      ∀ a, ((Memory.empty.write 9 2).write 0 3).read a = (((Memory.empty.write 0 3).write 9 1).write 9 2).read a :=
  ⟨rfl, rfl, fun _ => rfl⟩

theorem witness_RunLoopFollowsItsRule :
    State.reset.status = .ready ∧ fresh.status = .running ∧ fresh.cfg.stepLimit ≠ some fresh.steps ∧
      (State.resetWith { Config.standard with stepLimit := some 0 }).cfg.stepLimit = some 0 := by decide

/-- A jump to 16, just past a 16-byte memory, in its last two cells. -/
def jumpOut : State := code (goTo (machine 16 0) 14) [0x0E, 0x10]

theorem witness_AJumpBeyondMemoryFaultsAtTheNextFetch :
    jumpOut.AboutToFetch ∧ jumpOut.cfg.wf = true ∧ jumpOut.pc.toNat + 1 < jumpOut.cfg.memSize ∧
      jumpOut.mem.read jumpOut.pc.toNat = jumpOut.cfg.opcodeMap.byteOf .jmp ∧
      jumpOut.mem.read (jumpOut.pc.toNat + 1) = 0x10 ∧ jumpOut.cfg.memSize ≤ (0x10 : Byte).toNat ∧
      jumpOut.cfg.stepLimit ≠ some (jumpOut.steps + 1) := by decide

/-- One free stack cell, and the last address whose return address fits a byte. -/
def lastCall : State := goTo (fresh.setSp 1) 253

theorem witness_CallThenReturnComesBack :
    lastCall.Inv ∧ lastCall.sp.toNat ≠ lastCall.cfg.stackLow ∧ lastCall.pc.toNat + 2 ≤ 255 ∧
      ∃ v : State, v.cfg = (stateOf (exec (.call 9) lastCall)).cfg ∧ v.sp = (stateOf (exec (.call 9) lastCall)).sp ∧
        v.mem.read lastCall.sp.toNat = (stateOf (exec (.call 9) lastCall)).mem.read lastCall.sp.toNat :=
  ⟨⟨by decide, by decide, by decide, by decide, by decide, by decide, by decide⟩,
    by decide, by decide, _, rfl, rfl, rfl⟩

theorem witness_ExactlyCapacityPushesSucceed :
    (machine 16 13).Inv ∧ (machine 16 13).FaultFree ∧ (∀ r ∈ ([0, 7] : List Byte), r.toNat < 8) ∧
      (machine 16 13).sp.toNat = (machine 16 13).cfg.memSize - 1 ∧ [(0 : Byte), 7].length = (machine 16 13).cfg.stackCapacity ∧
      [(0 : Byte), 7][1]? = some 7 ∧ (7 : Byte).toNat = (7 : RegIdx).val :=
  ⟨⟨by decide, by decide, by decide, by decide, by decide, by decide, by decide⟩, (by intro k h; cases h),
    by decide, by decide, by decide, by decide, by decide⟩

/-- The machine of `AStoredByteIsFetched` after an instruction, about to fetch at an address. -/
def fetchAfter (i : Instr) (s : State) (pc : PcWord) : State := goTo (stateOf (exec i s)) pc

/-- The hypotheses of `FetchSees` at that machine. -/
abbrev FetchAfterWitness (i : Instr) (s : State) (ea : Nat) : Prop :=
  (fetchAfter i s (BitVec.ofNat 9 ea)).mem = (stateOf (exec i s)).mem ∧
    (fetchAfter i s (BitVec.ofNat 9 ea)).cfg = (stateOf (exec i s)).cfg ∧
    (fetchAfter i s (BitVec.ofNat 9 ea)).AboutToFetch ∧ (fetchAfter i s (BitVec.ofNat 9 ea)).pc.toNat = ea

/-- The last register holds NOP's opcode, the one before it the last address; one stack cell is free, and a CALL at
`pc` pushes the last return address that fits a byte. -/
def storing : State := goTo (((fresh.setReg 7 0x1B).setReg 6 0xFF).setSp 1) 253

theorem storing_inv : storing.Inv :=
  ⟨by decide, by decide, by decide, by decide, by decide, by decide, by decide⟩

theorem witness_AStoredByteIsFetched :
    storing.Inv ∧ directAddress 255 < storing.cfg.memSize ∧ storing.indirectAddress 6 < storing.cfg.memSize ∧
      storing.sp.toNat ≠ storing.cfg.stackLow ∧ storing.pc.toNat + 2 ≤ 255 ∧
      FetchAfterWitness (.store 7 255) storing 255 ∧ FetchAfterWitness (.stxi 7 6) storing 255 ∧
      FetchAfterWitness (.push 7) storing 1 ∧ FetchAfterWitness (.call 0) storing 1 :=
  ⟨storing_inv, by decide, by decide, by decide, by decide, by decide, by decide, by decide, by decide⟩

/-- The three branches of a fetch of the stored byte, in the last cell: a whole instruction, a truncated one, an unknown one. -/
theorem witness_FetchSees :
    storing.cfg.opcodeMap.byteOf .nop = storing.reg 7 ∧ ¬storing.cfg.memSize - 1 < 255 + Opcode.nop.operandCount ∧
      storing.cfg.opcodeMap.byteOf .inc = (storing.setReg 7 1).reg 7 ∧
      storing.cfg.memSize - 1 < 255 + Opcode.inc.operandCount ∧
      (∀ k, storing.cfg.opcodeMap.byteOf k ≠ storing.reg 6) ∧
      ∀ k, storing.cfg.opcodeMap.byteOf k ≠ BitVec.ofNat 8 (storing.pc.toNat + 2) :=
  ⟨by decide, by decide, by decide, by decide, fun k => by cases k <;> decide, fun k => by cases k <;> decide⟩

theorem witness_LoadProgramCopiesTheBytes :
    (State.resetWith { Config.standard with memSize := 1 }).Inv ∧
      (State.resetWith { Config.standard with memSize := 1 }).status = .ready ∧
      (State.resetWith { Config.standard with memSize := 1 }).loaded = false ∧ [(0x1A : Byte)].length ≤ 1 ∧
      1 < [(0x1A : Byte), 0x1A].length :=
  ⟨⟨by decide, by decide, by decide, by decide, by decide, by decide, by decide⟩, rfl, rfl, by decide, by decide⟩

theorem witness_HostOperationsOutOfTurnAreRefused :
    fresh.status ≠ .ready ∧ loadProgram [0x1A] State.reset = .next (stateOf (loadProgram [0x1A] State.reset)) :=
  ⟨by decide, rfl⟩

/-- A jump to itself in the last two cells. -/
def spin : State := code (goTo fresh 254) [0x0E, 0xFE]

theorem witness_AJumpToItselfNeverEnds :
    spin.Inv ∧ spin.status = .running ∧ spin.cfg.stepLimit = none ∧ spin.pc.toNat + 1 < spin.cfg.memSize ∧
      spin.mem.read spin.pc.toNat = spin.cfg.opcodeMap.byteOf .jmp ∧
      (spin.mem.read (spin.pc.toNat + 1)).toNat = spin.pc.toNat :=
  ⟨⟨by decide, by decide, by decide, by decide, by decide, by decide, by decide⟩,
    by decide, by decide, by decide, by decide, by decide⟩

/-- A machine with STEP_LIMIT = 2. -/
def limited : State := { fresh with cfg := { Config.standard with stepLimit := some 2 } }

theorem witness_AStepLimitBoundsTheRun :
    limited.status = .running ∧ limited.cfg.stepLimit = some 2 ∧ limited.steps ≤ 2 ∧
      ({ limited with steps := 2 } : State).steps ≤ 2 := by decide

theorem witness_StepsCountCompletedInstructions :
    fresh.FaultFree ∧ exec .hlt fresh = .next (stateOf (exec .hlt fresh)) :=
  ⟨fresh_faultFree, rfl⟩

theorem witness_ConditionsNameTheComparison :
    (7 : Byte).toNat = (7 : RegIdx).val ∧ exec (.cmp 7 0) fresh = .next (stateOf (exec (.cmp 7 0) fresh)) ∧
      State.reset.flags = ⟨false, false⟩ :=
  ⟨rfl, rfl, rfl⟩

theorem witness_AssembledBytesAreWellFormedCode :
    assemble .standard "x: INC r7".toList = .ok [0x01, 7] ∧ assemble .standard "y:\n ; c".toList = .ok [] ∧
      ∀ l ∈ sourceLines "y:\n ; c".toList, l.body = [] := by decide

theorem witness_AssembledLengthIsTheFinalCounter :
    assemble .standard "MOV r0, 1\nHLT".toList = .ok [0x03, 0, 1, 0x1A] := by decide

theorem witness_ALabelResolvesToItsAddress :
    (⟨2, some "b".toList, "HLT".toList⟩ : Line).label = some "b".toList ∧
      pass1 ([⟨1, none, "JMP b".toList⟩] ++ ⟨2, some "b".toList, "HLT".toList⟩ :: [⟨3, some "c".toList, []⟩]) [] 0 =
        .ok ([("c".toList, 3), ("b".toList, 2)], 3) ∧
      legalLabel "b".toList = true ∧ registerOf "r7".toList = some 7 ∧ Opcode.call.format = .a ∧ Opcode.load.format = .ra ∧
      [("b".toList, 255)].lookup "b".toList = some 255 ∧ [("b".toList, 256)].lookup "b".toList = some 256 ∧
      [("c".toList, 0)].lookup "b".toList = none := by decide

theorem witness_AListingAssemblesBack :
    ∀ i ∈ [Instr.movRI 7 255, .movRR 0 7, .jmp 255, .ret, .out 7, .load 0 0], i.wf = true := by decide

end Sys2Proof.Tests
end

