-- ==== Sys2Proof/Proofs/FetchChecks.lean ====
section
/-!
PROOFS. The step of a machine about to fetch, by the three checks of R55: one law per check, and one for an assigned
opcode byte.
-/

namespace Sys2Proof.Machine

/-- R55 step 1, as a step. -/
theorem step_pc_outside (s : State) (hs : s.AboutToFetch) (h : s.cfg.memSize ≤ s.pc.toNat) :
    step s = .next { s with status := .faulted .outOfBounds } :=
  step_of_fetch_fault s _ hs.1 hs.2 (s.fetch_pc_outside h)

/-- R55 step 2, as a step. -/
theorem step_unassigned_opcode (s : State) (hs : s.AboutToFetch) (h : s.pc.toNat < s.cfg.memSize)
    (hu : ∀ k, s.cfg.opcodeMap.byteOf k ≠ s.mem.read s.pc.toNat) :
    step s = .next { s with status := .faulted .unknownOpcode } :=
  step_of_fetch_fault s _ hs.1 hs.2 (s.fetch_unknown h ((s.cfg.opcodeMap.find_eq_none _).mpr hu))

/-- In a well-formed configuration the lookup finds the opcode that an opcode byte is assigned to. -/
theorem State.find_assigned_opcode (s : State) (hc : s.cfg.wf = true) {k : Opcode}
    (hk : s.cfg.opcodeMap.byteOf k = s.mem.read s.pc.toNat) :
    s.cfg.opcodeMap.find (s.mem.read s.pc.toNat) = some k := by
  obtain ⟨-, -, -, hm⟩ := s.cfg.wf_iff.mp hc
  rw [← hk, s.cfg.opcodeMap.find_byteOf hm k]

/-- R55 step 3 and the execution after it: an assigned opcode byte faults for a missing operand byte, else it runs. -/
theorem step_assigned_opcode (s : State) (hs : s.AboutToFetch) (hc : s.cfg.wf = true) (k : Opcode)
    (h : s.pc.toNat < s.cfg.memSize) (hk : s.cfg.opcodeMap.byteOf k = s.mem.read s.pc.toNat) :
    step s =
      if s.cfg.memSize - 1 < s.pc.toNat + k.operandCount then .next { s with status := .faulted .outOfBounds }
      else exec (k.instr (s.mem.read (s.pc.toNat + 1)) (s.mem.read (s.pc.toNat + 2))) s := by
  have hf := s.find_assigned_opcode hc hk
  split
  case isTrue ht => exact step_of_fetch_fault s _ hs.1 hs.2 (s.fetch_truncated k h hf ht)
  case isFalse ht => exact step_of_fetch s _ hs.1 hs.2 (s.fetch_whole k hf (by omega))

/-- Settles O28: the checks of R55, one law each. -/
theorem fetchChecksComeInOrder : Obligations.FetchChecksComeInOrder := by
  intro s hs hc
  exact ⟨step_pc_outside s hs, step_unassigned_opcode s hs, step_assigned_opcode s hs hc⟩

end Sys2Proof.Machine
end

