-- ==== Sys2Proof/Proofs/Arithmetic.lean ====
section
/-!
PROOFS. The arithmetic of 40_arithmetic.md (R70 to R75). What the six instructions share is said once: the fetch fault
of a truncated instruction, what writing a register and advancing gives, and the two register operations over it.
-/

namespace Sys2Proof.Machine

/-! ### What the instructions share -/

/-- R55 step 3, for every opcode. -/
theorem truncatedFetchFaults (k : Opcode) : TruncatedFetchFaults k := by
  intro s hs hc hpc hk ht
  rw [step_assigned_opcode s hs hc k hpc hk.symm, if_pos ht]

/-- A result that writes one register and advances, with its frame: the shape of R70 to R75. -/
theorem State.writes_reg_of_eq (s : State) {e : Result} {i : RegIdx} {v : Byte} {n : Nat}
    (he : e = .next ((s.setReg i v).advance n)) (hpc : s.pc.toNat ≤ 256) (hn : n ≤ 3) :
    ∃ t, e = .next t ∧ t.reg i = v ∧ SameOtherRegs i s t ∧ RegisterFrame s t ∧ t.pc.toNat = s.pc.toNat + n := by
  obtain ⟨hother, hframe⟩ := frame_setReg_advance s i v n
  exact ⟨_, he, by simp, hother, hframe, (s.setReg i v).advance_pc_toNat n hpc hn⟩

theorem State.unaryOp_writes_reg (s : State) (f : Byte → Byte) (r : Byte) (i : RegIdx) (hr : r.toNat = i.val)
    (hpc : s.pc.toNat ≤ 256) :
    ∃ t, s.unaryOp f r = .next t ∧ t.reg i = f (s.reg i) ∧ SameOtherRegs i s t ∧ RegisterFrame s t ∧
      t.pc.toNat = s.pc.toNat + 2 :=
  s.writes_reg_of_eq (s.unaryOp_valid f r i hr) hpc (by omega)

theorem State.binaryOp_writes_reg (s : State) (f : Byte → Byte → Except Fault Byte) (r1 r2 : Byte) (i j : RegIdx)
    (h1 : r1.toNat = i.val) (h2 : r2.toNat = j.val) (hpc : s.pc.toNat ≤ 256) {v : Byte}
    (hv : f (s.reg i) (s.reg j) = .ok v) :
    ∃ t, s.binaryOp f r1 r2 = .next t ∧ t.reg i = v ∧ SameOtherRegs i s t ∧ RegisterFrame s t ∧
      t.pc.toNat = s.pc.toNat + 3 :=
  s.writes_reg_of_eq (by rw [s.binaryOp_valid f r1 r2 i j h1 h2, hv]) hpc (by omega)

theorem State.binaryOp_faults (s : State) (f : Byte → Byte → Except Fault Byte) (r1 r2 : Byte) (i j : RegIdx)
    (h1 : r1.toNat = i.val) (h2 : r2.toNat = j.val) {k : Fault} (hk : f (s.reg i) (s.reg j) = .error k) :
    s.binaryOp f r1 r2 = .next { s with status := .faulted k } := by
  rw [s.binaryOp_valid f r1 r2 i j h1 h2, hk]

/-! ### The meaning of each instruction as a register operation -/

theorem exec_inc (r : Byte) (s : State) : exec (.inc r) s = s.unaryOp incByte r := rfl

theorem exec_dec (r : Byte) (s : State) : exec (.dec r) s = s.unaryOp decByte r := rfl

theorem exec_add (r1 r2 : Byte) (s : State) :
    exec (.add r1 r2) s = s.binaryOp (fun a b => .ok (addByte a b)) r1 r2 := rfl

theorem exec_sub (r1 r2 : Byte) (s : State) :
    exec (.sub r1 r2) s = s.binaryOp (fun a b => .ok (subByte a b)) r1 r2 := rfl

theorem exec_mul (r1 r2 : Byte) (s : State) :
    exec (.mul r1 r2) s = s.binaryOp (fun a b => .ok (mulByte a b)) r1 r2 := rfl

theorem exec_div (r1 r2 : Byte) (s : State) : exec (.div r1 r2) s = s.binaryOp divByte r1 r2 := rfl

/-! ### The obligations: encoding, register fault, effect with its frame, fetch fault -/

/-- Settles O1: INC is the unary operation of `incByte`. -/
theorem incAddsOneModulo256 : Obligations.IncAddsOneModulo256 := by
  refine ⟨fun _ => rfl, fun s r hr => ?_, fun s r i hr hpc => ?_, truncatedFetchFaults .inc⟩
  · rw [exec_inc, s.unaryOp_invalid incByte r hr]
  · rw [exec_inc]
    obtain ⟨t, ht, hreg, hframe⟩ := s.unaryOp_writes_reg incByte r i hr hpc
    exact ⟨t, ht, hreg ▸ incByte_toNat (s.reg i), hframe⟩

/-- Settles O2: DEC is the unary operation of `decByte`. -/
theorem decSubtractsOneModulo256 : Obligations.DecSubtractsOneModulo256 := by
  refine ⟨fun _ => rfl, fun s r hr => ?_, fun s r i hr hpc => ?_, truncatedFetchFaults .dec⟩
  · rw [exec_dec, s.unaryOp_invalid decByte r hr]
  · rw [exec_dec]
    obtain ⟨t, ht, hreg, hframe⟩ := s.unaryOp_writes_reg decByte r i hr hpc
    exact ⟨t, ht, hreg ▸ decByte_toInt (s.reg i), hframe⟩

/-- Settles O3: ADD is the binary operation of `addByte`, which never faults. -/
theorem addWritesSumModulo256 : Obligations.AddWritesSumModulo256 := by
  refine ⟨fun _ _ => rfl, fun s r1 r2 hr => ?_, fun s r1 r2 i j h1 h2 hpc => ?_, truncatedFetchFaults .add⟩
  · rw [exec_add, s.binaryOp_invalid _ r1 r2 hr]
  · rw [exec_add]
    obtain ⟨t, ht, hreg, hframe⟩ := s.binaryOp_writes_reg (fun a b => .ok (addByte a b)) r1 r2 i j h1 h2 hpc rfl
    exact ⟨t, ht, hreg ▸ addByte_toNat (s.reg i) (s.reg j), hframe⟩

/-- Settles O4: SUB is the binary operation of `subByte`, which never faults. -/
theorem subWritesDifferenceModulo256 : Obligations.SubWritesDifferenceModulo256 := by
  refine ⟨fun _ _ => rfl, fun s r1 r2 hr => ?_, fun s r1 r2 i j h1 h2 hpc => ?_, truncatedFetchFaults .sub⟩
  · rw [exec_sub, s.binaryOp_invalid _ r1 r2 hr]
  · rw [exec_sub]
    obtain ⟨t, ht, hreg, hframe⟩ := s.binaryOp_writes_reg (fun a b => .ok (subByte a b)) r1 r2 i j h1 h2 hpc rfl
    exact ⟨t, ht, hreg ▸ subByte_toInt (s.reg i) (s.reg j), hframe⟩

/-- Settles O5: MUL is the binary operation of `mulByte`, which never faults. -/
theorem mulWritesLowByteOfProduct : Obligations.MulWritesLowByteOfProduct := by
  refine ⟨fun _ _ => rfl, fun s r1 r2 hr => ?_, fun s r1 r2 i j h1 h2 hpc => ?_, truncatedFetchFaults .mul⟩
  · rw [exec_mul, s.binaryOp_invalid _ r1 r2 hr]
  · rw [exec_mul]
    obtain ⟨t, ht, hreg, hframe⟩ := s.binaryOp_writes_reg (fun a b => .ok (mulByte a b)) r1 r2 i j h1 h2 hpc rfl
    exact ⟨t, ht, hreg ▸ mulByte_toNat (s.reg i) (s.reg j), hframe⟩

/-- Settles O6: DIV is the binary operation of `divByte`, which faults exactly when the source register holds 0. -/
theorem divWritesFloorOrFaultsOnZero : Obligations.DivWritesFloorOrFaultsOnZero := by
  refine ⟨fun _ _ => rfl, fun s r1 r2 hr => ?_, fun s r1 r2 i j h1 h2 hzero => ?_,
    fun s r1 r2 i j h1 h2 hnonzero hpc => ?_, truncatedFetchFaults .div⟩
  · rw [exec_div, s.binaryOp_invalid divByte r1 r2 hr]
  · rw [exec_div]
    have hdiv : divByte (s.reg i) (s.reg j) = .error .divisionByZero := divByte_zero _ _ (by simp [hzero])
    exact s.binaryOp_faults divByte r1 r2 i j h1 h2 hdiv
  · rw [exec_div]
    have hne : (s.reg j).toNat ≠ 0 := fun h => hnonzero (BitVec.eq_of_toNat_eq h)
    obtain ⟨v, hdiv, hv⟩ := divByte_nonzero (s.reg i) (s.reg j) hne
    obtain ⟨t, ht, hreg, hframe⟩ := s.binaryOp_writes_reg divByte r1 r2 i j h1 h2 hpc hdiv
    exact ⟨t, ht, hreg ▸ hv, hframe⟩

end Sys2Proof.Machine
end

