-- ==== Sys2Proof/Proofs/DataMovement.lean ====
section
/-!
PROOFS. The data movement of 41_data_movement.md (R80 to R86). What the six instructions share is said once: the check
of the register bytes, and a settled load and store at an effective address, whichever mode computed it.
-/

namespace Sys2Proof.Machine

/-! ### The check of the register bytes, before everything else (R53, R154) -/

theorem State.settle_register_invalid (s : State) (f : RegIdx → Except Fault State) (r : Byte) (h : 8 ≤ r.toNat) :
    s.settle (do let i ← regIndex r; f i) = .next { s with status := .faulted .invalidRegister } := by
  rw [regIndex_invalid r h, error_bind, s.settle_error]

theorem State.settle_registers_invalid (s : State) (f : RegIdx → RegIdx → Except Fault State) (r1 r2 : Byte)
    (h : 8 ≤ r1.toNat ∨ 8 ≤ r2.toNat) :
    s.settle (do let i ← regIndex r1; let j ← regIndex r2; f i j) =
      .next { s with status := .faulted .invalidRegister } := by
  rw [regIndex_pair_invalid r1 r2 f h, s.settle_error]

theorem State.settle_register_valid (s : State) (f : RegIdx → Except Fault State) (r : Byte) (i : RegIdx)
    (h : r.toNat = i.val) : s.settle (do let i ← regIndex r; f i) = s.settle (f i) := by
  rw [regIndex_valid r i h, ok_bind]

theorem State.settle_registers_valid (s : State) (f : RegIdx → RegIdx → Except Fault State) (r1 r2 : Byte)
    (i j : RegIdx) (h1 : r1.toNat = i.val) (h2 : r2.toNat = j.val) :
    s.settle (do let i ← regIndex r1; let j ← regIndex r2; f i j) = s.settle (f i j) := by
  rw [regIndex_valid r1 i h1, ok_bind, regIndex_valid r2 j h2, ok_bind]

/-! ### A load and a store at an effective address (R33, R82 to R85) -/

theorem State.loadFrom_faults (s : State) (i : RegIdx) (ea : Nat) (h : s.cfg.memSize ≤ ea) :
    s.settle (s.loadFrom i ea) = .next { s with status := .faulted .outOfBounds } := by
  rw [s.loadFrom_outside i ea h, s.settle_error]

theorem State.loadFrom_writes_reg (s : State) (i : RegIdx) (ea : Nat) (h : ea < s.cfg.memSize)
    (hpc : s.pc.toNat ≤ 256) :
    ∃ t, s.settle (s.loadFrom i ea) = .next t ∧ t.reg i = s.mem.read ea ∧ SameOtherRegs i s t ∧ RegisterFrame s t ∧
      t.pc.toNat = s.pc.toNat + 3 :=
  s.writes_reg_of_eq (by rw [s.loadFrom_inside i ea h, s.settle_ok]) hpc (by omega)

theorem State.storeTo_faults (s : State) (i : RegIdx) (ea : Nat) (h : s.cfg.memSize ≤ ea) :
    s.settle (s.storeTo i ea) = .next { s with status := .faulted .outOfBounds } := by
  rw [s.storeTo_outside i ea h, s.settle_error]

/-- The canonical form is needed when the stored byte is 0: in a list out of order an older byte could stay listed at `ea`. -/
theorem State.storeTo_writes_byte (s : State) (i : RegIdx) (ea : Nat) (h : ea < s.cfg.memSize)
    (hm : s.mem.wf = true) (hpc : s.pc.toNat ≤ 256) :
    ∃ t, s.settle (s.storeTo i ea) = .next t ∧ t.mem.read ea = s.reg i ∧ SameMemBut ea s t ∧ SameRegs s t ∧
      t.flags = s.flags ∧ t.sp = s.sp ∧ t.out = s.out ∧ CompletedStep s t ∧ t.pc.toNat = s.pc.toNat + 3 := by
  have hsame : (s.mem.write ea (s.reg i)).read ea = s.reg i := s.mem.read_write_same ea (s.reg i) hm
  have hother : SameMemBut ea s ((s.setMem (s.mem.write ea (s.reg i))).advance 3) :=
    fun a ha => s.mem.read_write_other ea a (s.reg i) ha
  have hnext := (s.setMem (s.mem.write ea (s.reg i))).advance_pc_toNat 3 hpc (by omega)
  rw [s.storeTo_inside i ea h, s.settle_ok]
  exact ⟨_, rfl, hsame, hother, fun _ => rfl, rfl, rfl, rfl, ⟨rfl, rfl, rfl, rfl⟩, hnext⟩

/-! ### The meaning of each instruction: its register bytes, then its operation -/

theorem exec_movRI (r imm : Byte) (s : State) :
    exec (.movRI r imm) s = s.settle (do let i ← regIndex r; .ok ((s.setReg i imm).advance 3)) := rfl

theorem exec_movRR (r1 r2 : Byte) (s : State) : exec (.movRR r1 r2) s = s.binaryOp (fun _ b => .ok b) r1 r2 := rfl

theorem exec_load (r addr : Byte) (s : State) :
    exec (.load r addr) s = s.settle (do let i ← regIndex r; s.loadFrom i (directAddress addr)) := rfl

theorem exec_store (r addr : Byte) (s : State) :
    exec (.store r addr) s = s.settle (do let i ← regIndex r; s.storeTo i (directAddress addr)) := rfl

theorem exec_ldxi (r1 r2 : Byte) (s : State) :
    exec (.ldxi r1 r2) s =
      s.settle (do let i ← regIndex r1; let j ← regIndex r2; s.loadFrom i (s.indirectAddress j)) := rfl

theorem exec_stxi (r1 r2 : Byte) (s : State) :
    exec (.stxi r1 r2) s =
      s.settle (do let i ← regIndex r1; let j ← regIndex r2; s.storeTo i (s.indirectAddress j)) := rfl

/-! ### The obligations: encoding, register fault, address fault, effect with its frame, fetch fault -/

/-- Settles O7: MOV writes the immediate, whatever it is, once the register byte is checked. -/
theorem movImmediateWritesTheByte : Obligations.MovImmediateWritesTheByte := by
  refine ⟨fun _ _ => rfl, fun s r x hr => ?_, fun s r imm i hr hpc => ?_, truncatedFetchFaults .movRI⟩
  · rw [exec_movRI, s.settle_register_invalid _ r hr]
  · exact s.writes_reg_of_eq (by rw [exec_movRI, s.settle_register_valid _ r i hr, s.settle_ok]) hpc (by omega)

/-- Settles O8: MOV is the binary operation that answers its source, which never faults. -/
theorem movRegisterCopiesTheSource : Obligations.MovRegisterCopiesTheSource := by
  refine ⟨fun _ _ => rfl, fun s r1 r2 hr => ?_, fun s r1 r2 i j h1 h2 hpc => ?_, truncatedFetchFaults .movRR⟩
  · rw [exec_movRR, s.binaryOp_invalid _ r1 r2 hr]
  · rw [exec_movRR]
    exact s.binaryOp_writes_reg (fun _ b => .ok b) r1 r2 i j h1 h2 hpc rfl

/-- Settles O9: LOAD is a load from the direct address. -/
theorem loadReadsTheDirectAddress : Obligations.LoadReadsTheDirectAddress := by
  refine ⟨fun _ _ => rfl, fun s r x hr => ?_, fun s r addr i hr hout => ?_, fun s r addr i hr hin hpc => ?_,
    truncatedFetchFaults .load⟩
  · rw [exec_load, s.settle_register_invalid _ r hr]
  · rw [exec_load, s.settle_register_valid _ r i hr, s.loadFrom_faults i _ hout]
  · rw [exec_load, s.settle_register_valid _ r i hr]
    exact s.loadFrom_writes_reg i _ hin hpc

/-- Settles O10: LDXI is a load from the address that the second register holds in the old state. -/
theorem ldxiReadsTheAddressInARegister : Obligations.LdxiReadsTheAddressInARegister := by
  refine ⟨fun _ _ => rfl, fun s r1 r2 hr => ?_, fun s r1 r2 i j h1 h2 hout => ?_,
    fun s r1 r2 i j h1 h2 hin hpc => ?_, truncatedFetchFaults .ldxi⟩
  · rw [exec_ldxi, s.settle_registers_invalid _ r1 r2 hr]
  · rw [exec_ldxi, s.settle_registers_valid _ r1 r2 i j h1 h2, s.loadFrom_faults i _ hout]
  · rw [exec_ldxi, s.settle_registers_valid _ r1 r2 i j h1 h2]
    exact s.loadFrom_writes_reg i _ hin hpc

/-- Settles O11: STORE is a store to the direct address. -/
theorem storeWritesTheDirectAddress : Obligations.StoreWritesTheDirectAddress := by
  refine ⟨fun _ _ => rfl, fun s r x hr => ?_, fun s r addr i hr hout => ?_, fun s r addr i hr hin hm hpc => ?_,
    truncatedFetchFaults .store⟩
  · rw [exec_store, s.settle_register_invalid _ r hr]
  · rw [exec_store, s.settle_register_valid _ r i hr, s.storeTo_faults i _ hout]
  · rw [exec_store, s.settle_register_valid _ r i hr]
    exact s.storeTo_writes_byte i _ hin hm hpc

/-- Settles O12: STXI is a store to the address that the second register holds. -/
theorem stxiWritesTheAddressInARegister : Obligations.StxiWritesTheAddressInARegister := by
  refine ⟨fun _ _ => rfl, fun s r1 r2 hr => ?_, fun s r1 r2 i j h1 h2 hout => ?_,
    fun s r1 r2 i j h1 h2 hin hm hpc => ?_, truncatedFetchFaults .stxi⟩
  · rw [exec_stxi, s.settle_registers_invalid _ r1 r2 hr]
  · rw [exec_stxi, s.settle_registers_valid _ r1 r2 i j h1 h2, s.storeTo_faults i _ hout]
  · rw [exec_stxi, s.settle_registers_valid _ r1 r2 i j h1 h2]
    exact s.storeTo_writes_byte i _ hin hm hpc

end Sys2Proof.Machine
end

/-!
PROOFS. Comparison and jumps of 42_compare_jump.md (R90 to R99). The six conditional jumps are one branch over six
conditions; what a condition says of the flags (R92 to R97) and of two compared bytes (R98) is said once each.
-/

namespace Sys2Proof.Machine

/-! ### The meaning of each instruction: a settled comparison, a jump, or a branch on a condition -/

theorem exec_cmp (r1 r2 : Byte) (s : State) :
    exec (.cmp r1 r2) s =
      s.settle (do
        let i ← regIndex r1
        let j ← regIndex r2
        .ok ((s.setFlags (compareBytes (s.reg i) (s.reg j))).advance 3)) := rfl

theorem exec_cmp_valid (r1 r2 : Byte) (s : State) (i j : RegIdx) (h1 : r1.toNat = i.val) (h2 : r2.toNat = j.val) :
    exec (.cmp r1 r2) s = .next ((s.setFlags (compareBytes (s.reg i) (s.reg j))).advance 3) := by
  rw [exec_cmp, s.settle_registers_valid _ r1 r2 i j h1 h2, s.settle_ok]

theorem exec_jmp (a : Byte) (s : State) : exec (.jmp a) s = .next (s.jump a) := rfl

theorem exec_jeq (a : Byte) (s : State) : exec (.jeq a) s = s.branch s.flags.condEq a := rfl

theorem exec_jne (a : Byte) (s : State) : exec (.jne a) s = s.branch s.flags.condNe a := rfl

theorem exec_jgt (a : Byte) (s : State) : exec (.jgt a) s = s.branch s.flags.condGt a := rfl

theorem exec_jlt (a : Byte) (s : State) : exec (.jlt a) s = s.branch s.flags.condLt a := rfl

theorem exec_jle (a : Byte) (s : State) : exec (.jle a) s = s.branch s.flags.condLe a := rfl

theorem exec_jge (a : Byte) (s : State) : exec (.jge a) s = s.branch s.flags.condGe a := rfl

/-! ### Each condition over the flags (R92 to R97) -/

theorem Flags.condEq_iff (f : Flags) : f.condEq = true ↔ f.zero = true := Iff.rfl

theorem Flags.condNe_iff (f : Flags) : f.condNe = true ↔ f.zero = false := by simp [Flags.condNe]

theorem Flags.condGt_iff (f : Flags) : f.condGt = true ↔ f.greater = true := Iff.rfl

theorem Flags.condLt_iff (f : Flags) : f.condLt = true ↔ f.zero = false ∧ f.greater = false := by
  simp [Flags.condLt]

theorem Flags.condLe_iff (f : Flags) : f.condLe = true ↔ f.greater = false := by simp [Flags.condLe]

theorem Flags.condGe_iff (f : Flags) : f.condGe = true ↔ f.zero = true ∨ f.greater = true := by
  simp [Flags.condGe]

/-! ### The flags of a comparison, and each condition after it (R90, R98) -/

@[simp] theorem compareBytes_zero_iff (a b : Byte) : (compareBytes a b).zero = true ↔ a.toNat = b.toNat :=
  decide_eq_true_iff

@[simp] theorem compareBytes_greater_iff (a b : Byte) : (compareBytes a b).greater = true ↔ b.toNat < a.toNat :=
  decide_eq_true_iff

@[simp] theorem compareBytes_zero_false_iff (a b : Byte) : (compareBytes a b).zero = false ↔ a.toNat ≠ b.toNat :=
  decide_eq_false_iff_not

@[simp] theorem compareBytes_greater_false_iff (a b : Byte) :
    (compareBytes a b).greater = false ↔ a.toNat ≤ b.toNat :=
  decide_eq_false_iff_not.trans Nat.not_lt

theorem compareBytes_condEq_iff (a b : Byte) : (compareBytes a b).condEq = true ↔ a.toNat = b.toNat := by
  rw [Flags.condEq_iff, compareBytes_zero_iff]

theorem compareBytes_condNe_iff (a b : Byte) : (compareBytes a b).condNe = true ↔ a.toNat ≠ b.toNat := by
  rw [Flags.condNe_iff, compareBytes_zero_false_iff]

theorem compareBytes_condGt_iff (a b : Byte) : (compareBytes a b).condGt = true ↔ b.toNat < a.toNat := by
  rw [Flags.condGt_iff, compareBytes_greater_iff]

theorem compareBytes_condLt_iff (a b : Byte) : (compareBytes a b).condLt = true ↔ a.toNat < b.toNat := by
  rw [Flags.condLt_iff, compareBytes_zero_false_iff, compareBytes_greater_false_iff]
  omega

theorem compareBytes_condLe_iff (a b : Byte) : (compareBytes a b).condLe = true ↔ a.toNat ≤ b.toNat := by
  rw [Flags.condLe_iff, compareBytes_greater_false_iff]

theorem compareBytes_condGe_iff (a b : Byte) : (compareBytes a b).condGe = true ↔ b.toNat ≤ a.toNat := by
  rw [Flags.condGe_iff, compareBytes_zero_iff, compareBytes_greater_iff]
  omega

/-! ### A branch whose condition says `p` -/

theorem State.branch_of_iff (s : State) {taken : Bool} {p : Prop} [Decidable p] (h : taken = true ↔ p) (a : Byte) :
    s.branch taken a = .next (if p then s.jump a else s.advance 2) := by
  simp only [s.branch_eq, h]

/-- Where a branch leads, with its frame: the shape of R92 to R97. -/
theorem State.branch_goes (s : State) {taken : Bool} {p : Prop} [Decidable p] (h : taken = true ↔ p) (a : Byte)
    (hpc : s.pc.toNat ≤ 256) :
    ∃ t, s.branch taken a = .next t ∧ t.pc.toNat = (if p then a.toNat else s.pc.toNat + 2) ∧ ControlFrame s t := by
  refine ⟨_, s.branch_of_iff h a, ?_⟩
  split
  case isTrue => exact ⟨zext9_toNat a, frame_jump s a⟩
  case isFalse => exact ⟨s.advance_pc_toNat 2 hpc (by omega), frame_advance s 2⟩

/-! ### The obligations: encoding, effect with its frame, fetch fault -/

/-- Settles O13: CMP checks both register bytes, then writes the flags of `compareBytes` and advances. -/
theorem compareWritesBothFlags : Obligations.CompareWritesBothFlags := by
  refine ⟨fun _ _ => rfl, fun s r1 r2 hr => ?_, fun s r1 r2 i j h1 h2 hpc => ?_, truncatedFetchFaults .cmp⟩
  · rw [exec_cmp, s.settle_registers_invalid _ r1 r2 hr]
  · have hnext := (s.setFlags (compareBytes (s.reg i) (s.reg j))).advance_pc_toNat 3 hpc (by omega)
    exact ⟨_, exec_cmp_valid r1 r2 s i j h1 h2, compareBytes_zero_iff _ _, compareBytes_greater_iff _ _,
      fun _ => rfl, rfl, fun _ => rfl, rfl, ⟨rfl, rfl, rfl, rfl⟩, hnext⟩

/-- Settles O14: JMP is a jump, whose 9-bit target holds the address byte. -/
theorem jmpGoesToTheAddress : Obligations.JmpGoesToTheAddress :=
  ⟨fun _ => rfl, fun s a => ⟨_, exec_jmp a s, zext9_toNat a, frame_jump s a⟩, truncatedFetchFaults .jmp⟩

/-- Settles O15: JEQ branches on `condEq`. -/
theorem jeqJumpsWhenZ : Obligations.JeqJumpsWhenZ :=
  ⟨fun _ => rfl, fun s a hpc => exec_jeq a s ▸ s.branch_goes s.flags.condEq_iff a hpc, truncatedFetchFaults .jeq⟩

/-- Settles O16: JNE branches on `condNe`. -/
theorem jneJumpsWhenNotZ : Obligations.JneJumpsWhenNotZ :=
  ⟨fun _ => rfl, fun s a hpc => exec_jne a s ▸ s.branch_goes s.flags.condNe_iff a hpc, truncatedFetchFaults .jne⟩

/-- Settles O17: JGT branches on `condGt`. -/
theorem jgtJumpsWhenG : Obligations.JgtJumpsWhenG :=
  ⟨fun _ => rfl, fun s a hpc => exec_jgt a s ▸ s.branch_goes s.flags.condGt_iff a hpc, truncatedFetchFaults .jgt⟩

/-- Settles O18: JLT branches on `condLt`. -/
theorem jltJumpsWhenNeitherFlag : Obligations.JltJumpsWhenNeitherFlag :=
  ⟨fun _ => rfl, fun s a hpc => exec_jlt a s ▸ s.branch_goes s.flags.condLt_iff a hpc, truncatedFetchFaults .jlt⟩

/-- Settles O19: JLE branches on `condLe`. -/
theorem jleJumpsWhenNotG : Obligations.JleJumpsWhenNotG :=
  ⟨fun _ => rfl, fun s a hpc => exec_jle a s ▸ s.branch_goes s.flags.condLe_iff a hpc, truncatedFetchFaults .jle⟩

/-- Settles O20: JGE branches on `condGe`. -/
theorem jgeJumpsWhenEitherFlag : Obligations.JgeJumpsWhenEitherFlag :=
  ⟨fun _ => rfl, fun s a hpc => exec_jge a s ▸ s.branch_goes s.flags.condGe_iff a hpc, truncatedFetchFaults .jge⟩

/-! ### The conditions after a comparison and at clear flags (R98) -/

/-- A branch on a condition that holds is taken. -/
theorem State.branch_taken (s : State) {taken : Bool} (h : taken = true) (a : Byte) :
    s.branch taken a = .next (s.jump a) := by
  rw [s.branch_eq, if_pos h]

/-- A branch on a condition that fails goes on to the next instruction. -/
theorem State.branch_not_taken (s : State) {taken : Bool} (h : taken = false) (a : Byte) :
    s.branch taken a = .next (s.advance 2) := by
  rw [s.branch_eq, if_neg (by simp [h])]

theorem flags_after_cmp {s t : State} {r1 r2 : Byte} {i j : RegIdx} (h1 : r1.toNat = i.val) (h2 : r2.toNat = j.val)
    (h : exec (.cmp r1 r2) s = .next t) : t.flags = compareBytes (s.reg i) (s.reg j) := by
  rw [exec_cmp_valid r1 r2 s i j h1 h2] at h
  cases h
  rfl

/-- Settles O56: after CMP each condition is read at the flags of `compareBytes`; at clear flags it is computed. -/
theorem conditionsNameTheComparison : Obligations.ConditionsNameTheComparison := by
  refine ⟨fun s t r1 r2 a i j h1 h2 hcmp => ?_, fun s a hclear => ?_⟩
  · have hf := flags_after_cmp h1 h2 hcmp
    rw [exec_jeq, exec_jne, exec_jgt, exec_jlt, exec_jle, exec_jge, hf]
    exact ⟨t.branch_of_iff (compareBytes_condEq_iff _ _) a, t.branch_of_iff (compareBytes_condNe_iff _ _) a,
      t.branch_of_iff (compareBytes_condGt_iff _ _) a, t.branch_of_iff (compareBytes_condLt_iff _ _) a,
      t.branch_of_iff (compareBytes_condLe_iff _ _) a, t.branch_of_iff (compareBytes_condGe_iff _ _) a⟩
  · rw [exec_jeq, exec_jne, exec_jgt, exec_jlt, exec_jle, exec_jge, hclear]
    exact ⟨s.branch_taken rfl a, s.branch_taken rfl a, s.branch_taken rfl a,
      s.branch_not_taken rfl a, s.branch_not_taken rfl a, s.branch_not_taken rfl a⟩

end Sys2Proof.Machine

/-!
PROOFS. The stack and the calls of 43_stack_call.md (R100 to R104). What PUSH and CALL share is said once: the state
after a push and what it holds; each instruction is then one equation per fault and one for its effect.
-/

namespace Sys2Proof.Machine

/-! ### A one-byte instruction cannot run out of memory at its fetch (R55) -/

theorem oneByteFetchRuns (k : Opcode) (hk : k.operandCount = 0) : OneByteFetchRuns k := by
  intro s hs hc hpc hb
  rw [step_assigned_opcode s hs hc k hpc hb.symm, if_neg (by omega), k.instr_none hk _ _ 0 0]

/-! ### The state after a push (R104) -/

/-- The byte at the old `sp`, then `sp` one down: what `State.push` answers when the cell exists. -/
def State.afterPush (s : State) (v : Byte) : State := (s.setMem (s.mem.write s.sp.toNat v)).setSp (s.sp - 1)

theorem State.Inv.push_eq {s : State} (h : s.Inv) (v : Byte) : s.push v = .ok (s.afterPush v) :=
  s.push_inside v h.sp_inside

/-- The canonical form is the clause of the invariant it needs: without it an older byte
could stay listed. -/
theorem State.Inv.afterPush_read_same {s : State} (h : s.Inv) (v : Byte) :
    (s.afterPush v).mem.read s.sp.toNat = v :=
  s.mem.read_write_same s.sp.toNat v h.memCanonical

theorem State.afterPush_read_other (s : State) (v : Byte) : SameMemBut s.sp.toNat s (s.afterPush v) :=
  fun a ha => s.mem.read_write_other s.sp.toNat a v ha

theorem State.Inv.afterPush_sp {s : State} (h : s.Inv) (hfree : s.sp.toNat ≠ s.cfg.stackLow) (v : Byte) :
    (s.afterPush v).sp.toNat + 1 = s.sp.toNat :=
  h.sp_pred hfree

/-! ### The meaning of each instruction: its checks in order, then its stack operation -/

theorem exec_push (r : Byte) (s : State) :
    exec (.push r) s =
      s.settle (do
        let i ← regIndex r
        guardFault s.stackFull .stackOverflow
        let t ← s.push (s.reg i)
        .ok (t.advance 2)) := rfl

theorem exec_pop (r : Byte) (s : State) :
    exec (.pop r) s =
      s.settle (do
        let i ← regIndex r
        guardFault s.stackEmpty .stackUnderflow
        let (v, t) ← s.pop
        .ok ((t.setReg i v).advance 2)) := rfl

theorem exec_call (a : Byte) (s : State) :
    exec (.call a) s =
      s.settle (do
        guardFault s.stackFull .stackOverflow
        guardFault (decide (255 < s.pc.toNat + 2)) .outOfBounds
        let t ← s.push (BitVec.ofNat 8 (s.pc.toNat + 2))
        .ok (t.jump a)) := rfl

theorem exec_ret (s : State) :
    exec .ret s =
      s.settle (do
        guardFault s.stackEmpty .stackUnderflow
        let (v, t) ← s.pop
        .ok (t.jump v)) := rfl

/-! ### The faults of a full and of an empty stack, and of a return address beyond a byte (R150, R154) -/

theorem exec_push_full (r : Byte) (s : State) (i : RegIdx) (hr : r.toNat = i.val)
    (hfull : s.sp.toNat = s.cfg.stackLow) :
    exec (.push r) s = .next { s with status := .faulted .stackOverflow } := by
  rw [exec_push, s.settle_register_valid _ r i hr, s.stackFull_of hfull, guardFault_true, error_bind, s.settle_error]

theorem exec_pop_empty (r : Byte) (s : State) (i : RegIdx) (hr : r.toNat = i.val)
    (hempty : s.sp.toNat = s.cfg.memSize - 1) :
    exec (.pop r) s = .next { s with status := .faulted .stackUnderflow } := by
  rw [exec_pop, s.settle_register_valid _ r i hr, s.stackEmpty_of hempty, guardFault_true, error_bind, s.settle_error]

theorem exec_call_full (a : Byte) (s : State) (hfull : s.sp.toNat = s.cfg.stackLow) :
    exec (.call a) s = .next { s with status := .faulted .stackOverflow } := by
  rw [exec_call, s.stackFull_of hfull, guardFault_true, error_bind, s.settle_error]

theorem exec_call_beyond (a : Byte) (s : State) (hfree : s.sp.toNat ≠ s.cfg.stackLow) (hpc : 255 < s.pc.toNat + 2) :
    exec (.call a) s = .next { s with status := .faulted .outOfBounds } := by
  rw [exec_call, s.stackFull_not hfree, guardFault_false, ok_bind, decide_eq_true hpc, guardFault_true, error_bind,
    s.settle_error]

theorem exec_ret_empty (s : State) (hempty : s.sp.toNat = s.cfg.memSize - 1) :
    exec .ret s = .next { s with status := .faulted .stackUnderflow } := by
  rw [exec_ret, s.stackEmpty_of hempty, guardFault_true, error_bind, s.settle_error]

/-! ### The effects, where no check faults -/

theorem State.Inv.pop_eq {s : State} (h : s.Inv) (hsome : s.sp.toNat ≠ s.cfg.memSize - 1) :
    s.pop = .ok (s.mem.read (s.sp.toNat + 1), s.setSp (s.sp + 1)) := by
  rw [s.pop_inside (h.popAddress_inside hsome), h.popAddress_eq hsome]

theorem exec_push_free (r : Byte) {s : State} (i : RegIdx) (h : s.Inv) (hr : r.toNat = i.val)
    (hfree : s.sp.toNat ≠ s.cfg.stackLow) :
    exec (.push r) s = .next ((s.afterPush (s.reg i)).advance 2) := by
  rw [exec_push, s.settle_register_valid _ r i hr, s.stackFull_not hfree, guardFault_false, ok_bind, h.push_eq, ok_bind,
    s.settle_ok]

theorem exec_pop_nonempty (r : Byte) {s : State} (i : RegIdx) (h : s.Inv) (hr : r.toNat = i.val)
    (hsome : s.sp.toNat ≠ s.cfg.memSize - 1) :
    exec (.pop r) s = .next (((s.setSp (s.sp + 1)).setReg i (s.mem.read (s.sp.toNat + 1))).advance 2) := by
  rw [exec_pop, s.settle_register_valid _ r i hr, s.stackEmpty_not hsome, guardFault_false, ok_bind, h.pop_eq hsome,
    ok_bind, s.settle_ok]

theorem exec_call_free (a : Byte) {s : State} (h : s.Inv) (hfree : s.sp.toNat ≠ s.cfg.stackLow)
    (hpc : s.pc.toNat + 2 ≤ 255) :
    exec (.call a) s = .next ((s.afterPush (BitVec.ofNat 8 (s.pc.toNat + 2))).jump a) := by
  rw [exec_call, s.stackFull_not hfree, guardFault_false, ok_bind, decide_eq_false (Nat.not_lt.mpr hpc),
    guardFault_false, ok_bind, h.push_eq, ok_bind, s.settle_ok]

theorem exec_ret_nonempty {s : State} (h : s.Inv) (hsome : s.sp.toNat ≠ s.cfg.memSize - 1) :
    exec .ret s = .next ((s.setSp (s.sp + 1)).jump (s.mem.read (s.sp.toNat + 1))) := by
  rw [exec_ret, s.stackEmpty_not hsome, guardFault_false, ok_bind, h.pop_eq hsome, ok_bind, s.settle_ok]

/-! ### The obligations: encoding, faults in order, effect with its frame, fetch -/

/-- Settles O21: PUSH is a push of the register, then an advance. -/
theorem pushStoresBelowAndMovesDown : Obligations.PushStoresBelowAndMovesDown := by
  refine ⟨fun _ => rfl, fun s r hr => ?_, fun s r i => exec_push_full r s i,
    fun s r i h hr hfree => ?_, truncatedFetchFaults .push⟩
  · rw [exec_push, s.settle_register_invalid _ r hr]
  · have hnext := (s.afterPush (s.reg i)).advance_pc_toNat 2 h.pcOk (by omega)
    exact ⟨_, exec_push_free r i h hr hfree, h.afterPush_read_same (s.reg i), s.afterPush_read_other (s.reg i),
      h.afterPush_sp hfree (s.reg i), fun _ => rfl, rfl, rfl, ⟨rfl, rfl, rfl, rfl⟩, hnext⟩

/-- Settles O22: POP writes the popped byte to the register and advances; the memory is the old one. -/
theorem popReadsAboveAndMovesUp : Obligations.PopReadsAboveAndMovesUp := by
  refine ⟨fun _ => rfl, fun s r hr => ?_, fun s r i => exec_pop_empty r s i,
    fun s r i h hr hsome => ?_, truncatedFetchFaults .pop⟩
  · rw [exec_pop, s.settle_register_invalid _ r hr]
  · have hsp : (s.sp + 1).toNat = s.sp.toNat + 1 := h.popAddress_eq hsome
    obtain ⟨t, ht, hreg, hother, ⟨hflags, htsp, hmem, hout, hdone⟩, hnext⟩ :=
      (s.setSp (s.sp + 1)).writes_reg_of_eq (exec_pop_nonempty r i h hr hsome) h.pcOk (by omega)
    exact ⟨t, ht, htsp ▸ hsp, hreg, hother, hmem, hflags, hout, hdone, hnext⟩

/-- Settles O23: CALL is a push of the return address, which fits a byte, then a jump. -/
theorem callPushesTheReturnAddress : Obligations.CallPushesTheReturnAddress := by
  refine ⟨fun _ => rfl, fun s a => exec_call_full a s,
    fun s a => exec_call_beyond a s, fun s a h hfree hpc => ?_, truncatedFetchFaults .call⟩
  have hread : ((s.afterPush (BitVec.ofNat 8 (s.pc.toNat + 2))).mem.read s.sp.toNat).toNat = s.pc.toNat + 2 := by
    rw [h.afterPush_read_same, BitVec.toNat_ofNat, Nat.mod_eq_of_lt (by omega)]
  have hsp := h.afterPush_sp hfree (BitVec.ofNat 8 (s.pc.toNat + 2))
  exact ⟨_, exec_call_free a h hfree hpc, hread, s.afterPush_read_other _, hsp, zext9_toNat a, fun _ => rfl, rfl, rfl,
    ⟨rfl, rfl, rfl, rfl⟩⟩

/-- Settles O24: RET jumps to the popped byte, and its fetch needs no operand byte. -/
theorem retPopsTheProgramCounter : Obligations.RetPopsTheProgramCounter := by
  refine ⟨rfl, exec_ret_empty, fun s h hsome => ?_, oneByteFetchRuns .ret rfl⟩
  have hsp : (s.sp + 1).toNat = s.sp.toNat + 1 := h.popAddress_eq hsome
  exact ⟨_, exec_ret_nonempty h hsome, hsp, zext9_toNat _, fun _ => rfl, fun _ => rfl, rfl, rfl,
    ⟨rfl, rfl, rfl, rfl⟩⟩

end Sys2Proof.Machine

/-!
PROOFS. The output and the system instructions of 44_system_io.md (R110 to R112): OUT checks its register byte, emits
and advances; NOP is an advance and nothing else.
-/

namespace Sys2Proof.Machine

/-! ### The meaning of each instruction -/

theorem exec_out (r : Byte) (s : State) :
    exec (.out r) s = s.settle (do let i ← regIndex r; .ok ((s.emit (s.reg i)).advance 2)) := rfl

theorem exec_out_valid (r : Byte) (s : State) (i : RegIdx) (hr : r.toNat = i.val) :
    exec (.out r) s = .next ((s.emit (s.reg i)).advance 2) := by
  rw [exec_out, s.settle_register_valid _ r i hr, s.settle_ok]

theorem exec_nop (s : State) : exec .nop s = .next (s.advance 1) := rfl

/-! ### The obligations: encoding, register fault, effect with its frame, fetch -/

/-- Settles O25: OUT emits the register, which touches the output alone, then advances. -/
theorem outAppendsTheRegister : Obligations.OutAppendsTheRegister := by
  refine ⟨fun _ => rfl, fun s r hr => ?_, fun s r i hr hpc => ?_, truncatedFetchFaults .out⟩
  · rw [exec_out, s.settle_register_invalid _ r hr]
  · have hnext := (s.emit (s.reg i)).advance_pc_toNat 2 hpc (by omega)
    obtain ⟨hregs, hflags, hsp, hmem, hout, hdone⟩ := frame_advance (s.emit (s.reg i)) 2
    exact ⟨_, exec_out_valid r s i hr, hout, hregs, hflags, hsp, hmem, hdone, hnext⟩

/-- Settles O27: NOP is an advance, and its fetch needs no operand byte. -/
theorem nopOnlyAdvances : Obligations.NopOnlyAdvances :=
  ⟨rfl, fun s hpc => ⟨_, exec_nop s, s.advance_pc_toNat 1 hpc (by omega), frame_advance s 1⟩, oneByteFetchRuns .nop rfl⟩

end Sys2Proof.Machine

/-!
PROOFS. The precise faults of 60_exceptions.md (R153). An instruction that completes raises no fault, so a fault comes
from the one operation that takes it; and a step either executes a fetched instruction or changes the status alone.
-/

namespace Sys2Proof.Machine

/-- A completed instruction leaves the status (R20) or halts the machine (R111). -/
theorem Completed.status_cases {s t : State} (h : Completed s t) : t.status = s.status ∨ t.status = .halted := by
  cases h with
  | wroteReg | wroteMem | compared | went | pushed | popped | returned | emitted => exact .inl rfl
  | halted => exact .inr rfl

theorem Completed.faultFree {s t : State} (h : Completed s t) (hs : s.FaultFree) : t.FaultFree := by
  intro k hk
  rcases h.status_cases with hsame | hhalted
  · exact hs k (hsame ▸ hk)
  · simp [hhalted] at hk

/-- What one step can do: change the status alone, or execute the instruction it fetched. -/
theorem step_cases {s t : State} (h : step s = .next t) :
    (∃ x, t = { s with status := x }) ∨ ∃ i, s.AboutToFetch ∧ s.fetch = .ok i ∧ exec i s = .next t := by
  cases hst : s.status with
  | ready =>
    simp only [step, startRun, hst, if_true] at h
    cases h; exact .inl ⟨.running, rfl⟩
  | running =>
    cases hl : s.limitReached with
    | true =>
      simp only [step, hst, hl, if_true] at h
      cases h; exact .inl ⟨.stepLimit, rfl⟩
    | false =>
      cases hf : s.fetch with
      | ok i =>
        rw [step_of_fetch s i hst hl hf] at h
        exact .inr ⟨i, ⟨hst, hl⟩, rfl, h⟩
      | error k =>
        rw [step_of_fetch_fault s k hst hl hf] at h
        cases h; exact .inl ⟨.faulted k, rfl⟩
  | halted | faulted | stepLimit =>
    simp only [step, hst] at h
    cases h; exact .inl ⟨s.status, rfl⟩

/-- R153 for an instruction. -/
theorem exec_fault_precise (i : Instr) {s t : State} {k : Fault} (hs : s.FaultFree) (h : exec i s = .next t)
    (hk : t.status = .faulted k) : t = { s with status := .faulted k } := by
  rcases exec_cases i s t h with hdone | ⟨k', rfl⟩
  · exact absurd hk (hdone.faultFree hs k)
  · exact congrArg s.setStatus hk

/-- R153 for a step. -/
theorem step_fault_precise {s t : State} {k : Fault} (hs : s.FaultFree) (h : step s = .next t)
    (hk : t.status = .faulted k) : t = { s with status := .faulted k } := by
  rcases step_cases h with ⟨x, rfl⟩ | ⟨i, -, -, hexec⟩
  · exact congrArg s.setStatus hk
  · exact exec_fault_precise i hs hexec hk

/-- Settles O38: R153 for every instruction, and for the step that fetches it. -/
theorem faultsArePrecise : Obligations.FaultsArePrecise :=
  ⟨fun i _ _ _ => exec_fault_precise i, fun _ _ _ => step_fault_precise⟩

end Sys2Proof.Machine

/-!
PROOFS. The host's load of 70_reset_and_hazards.md (R181). What a loaded memory reads, at and beyond the bytes, joins
`Memory.read_load_before`; `loadProgram` before the first load is then one equation per side of its limit.
-/

namespace Sys2Proof.Machine

/-! ### What a loaded memory reads -/

/-- A load changes no byte past its last address. -/
theorem Memory.read_load_after (m : Memory) (a c : Nat) (bs : List Byte) (h : a + bs.length ≤ c) :
    (m.load a bs).read c = m.read c := by
  induction bs generalizing m a with
  | nil => rfl
  | cons b rest ih =>
    rw [List.length_cons] at h
    rw [Memory.load, ih (m.write a b) (a + 1) (by omega), m.read_write_other a c b (by omega)]

/-- Each loaded byte stands at its place: the first is stored and kept by the rest of the load. -/
theorem Memory.read_load_inside (m : Memory) (a n : Nat) (bs : List Byte) (hm : m.wf = true) (h : n < bs.length) :
    (m.load a bs).read (a + n) = bs[n] := by
  induction bs generalizing m a n with
  | nil => exact absurd h n.not_lt_zero
  | cons b rest ih =>
    rw [Memory.load]
    cases n with
    | zero => exact ((m.write a b).read_load_before (a + 1) a rest a.lt_succ_self).trans (m.read_write_same a b hm)
    | succ n =>
      rw [List.length_cons] at h
      rw [show a + (n + 1) = a + 1 + n by omega, List.getElem_cons_succ]
      exact ih (m.write a b) (a + 1) n (m.wf_write a b hm) (by omega)

/-! ### The load before the first one, on either side of its limit -/

theorem loadProgram_too_long {s : State} {bytes : List Byte} (hs : s.status = .ready) (hl : s.loaded = false)
    (h : s.cfg.memSize < bytes.length) : loadProgram bytes s = .fault .outOfBounds := by
  simp [loadProgram, hs, hl, h]

theorem loadProgram_fits {s : State} {bytes : List Byte} (hs : s.status = .ready) (hl : s.loaded = false)
    (h : bytes.length ≤ s.cfg.memSize) :
    loadProgram bytes s = .next { s with mem := s.mem.load 0 bytes, loaded := true } := by
  simp [loadProgram, hs, hl, h]

/-! ### The obligation: the limit, the bytes, and what the load leaves alone -/

/-- Settles O50: a program that fits is the load of the memory from address 0; a longer one answers the fault. -/
theorem loadProgramCopiesTheBytes : Obligations.LoadProgramCopiesTheBytes := by
  intro s bytes hinv hs hl
  refine ⟨loadProgram_too_long hs hl, fun hfits => ⟨_, loadProgram_fits hs hl hfits, fun n hn => ?bytes,
    fun a ha => ?above, fun _ => rfl, rfl, rfl, rfl, rfl, rfl, rfl, rfl⟩⟩
  case bytes => simpa using s.mem.read_load_inside 0 n bytes hinv.memCanonical hn
  case above => exact s.mem.read_load_after 0 a bytes (by omega)

end Sys2Proof.Machine

/-!
PROOFS. The encoding of 30_encoding.md (R50 to R58): the decoder and the encoder undo each other, an unassigned byte is
refused, and the bytes of an instruction in memory make the step run it.
-/

namespace Sys2Proof

/-! ### The operand split of an instruction's own operand bytes, and what any operand split has read -/

/-- The operand split reads an instruction back from its operand bytes. -/
theorem takeOperands_operands (i : Instr) (rest : List Byte) :
    takeOperands i.opcode (i.operands ++ rest) = .ok (i, rest) := by
  cases i <;> rfl

/-- The operand bytes of an opcode's instruction are as many of the two bytes given as the format has. -/
theorem Opcode.instr_operands (k : Opcode) (x y : Byte) : (k.instr x y).operands = [x, y].take k.operandCount := by
  cases k <;> rfl

/-- What the operand split answers is an instruction of the opcode whose operand bytes stood there. -/
theorem takeOperands_ok {k : Opcode} {bytes rest : List Byte} {i : Instr} (h : takeOperands k bytes = .ok (i, rest)) :
    i.opcode = k ∧ bytes = i.operands ++ rest := by
  unfold takeOperands at h
  split at h
  case h_1 hk => cases h; simp [k.instr_operands, hk]
  case h_2 hk => cases h; simp [k.instr_operands, hk]
  case h_3 hk => cases h; simp [k.instr_operands, hk]
  case h_4 => cases h

/-! ### The decoder, by what the map says of the first byte -/

theorem decode_assigned {m : OpcodeMap} {b : Byte} {k : Opcode} (h : m.find b = some k) (rest : List Byte) :
    decode m (b :: rest) = takeOperands k rest := by
  simp only [decode, h]

theorem decode_unassigned {m : OpcodeMap} {b : Byte} (h : ∀ k, m.byteOf k ≠ b) (rest : List Byte) :
    decode m (b :: rest) = .error .unknownOpcode := by
  simp only [decode, (m.find_eq_none b).mpr h]

theorem decode_encode {m : OpcodeMap} (h : m.wf = true) (i : Instr) (rest : List Byte) :
    decode m (encode m i ++ rest) = .ok (i, rest) := by
  rw [encode, List.cons_append, decode_assigned (m.find_byteOf h i.opcode), takeOperands_operands]

theorem encode_of_decode {m : OpcodeMap} {bytes rest : List Byte} {i : Instr} (h : decode m bytes = .ok (i, rest)) :
    bytes = encode m i ++ rest := by
  cases bytes with
  | nil => cases h
  | cons b tail =>
    cases hk : m.find b with
    | none => rw [decode_unassigned ((m.find_eq_none b).mp hk)] at h; cases h
    | some k =>
      rw [decode_assigned hk] at h
      obtain ⟨rfl, rfl⟩ := takeOperands_ok h
      rw [encode, m.byteOf_of_find hk, List.cons_append]

theorem encode_length (m : OpcodeMap) (i : Instr) : (encode m i).length = i.opcode.length := by
  rw [encode, List.length_cons, i.operands_length, Opcode.length, Nat.add_comm]

/-! ### The default map (R56): 0x01 to 0x1B, in the order of the table -/

theorem OpcodeMap.standard_byteOf_range (k : Opcode) :
    1 ≤ (OpcodeMap.standard.byteOf k).toNat ∧ (OpcodeMap.standard.byteOf k).toNat ≤ 0x1B := by
  cases k <;> decide

theorem OpcodeMap.standard_byteOf_getElem :
    ∀ n : Fin Opcode.all.length, OpcodeMap.standard.byteOf Opcode.all[n] = BitVec.ofNat 8 (n.val + 1) := by
  decide

theorem OpcodeMap.standard_unassigned_iff (b : Byte) :
    (∀ k, OpcodeMap.standard.byteOf k ≠ b) ↔ b = 0 ∨ 0x1C ≤ b.toNat := by
  constructor
  · intro h
    by_contra hb
    obtain ⟨hne, hlt⟩ := not_or.mp hb
    have hpos : b.toNat ≠ 0 := fun e => hne (BitVec.eq_of_toNat_eq e)
    have hn : b.toNat - 1 < Opcode.all.length := show b.toNat - 1 < 27 by omega
    have hb : BitVec.ofNat 8 (b.toNat - 1 + 1) = b := by
      rw [Nat.sub_add_cancel (by omega), BitVec.ofNat_toNat, BitVec.setWidth_eq]
    exact h _ ((standard_byteOf_getElem ⟨b.toNat - 1, hn⟩).trans hb)
  · rintro h k rfl
    obtain ⟨hlow, hhigh⟩ := standard_byteOf_range k
    rcases h with hzero | hbeyond
    · rw [hzero] at hlow
      exact absurd hlow (by decide)
    · omega

/-! ### The obligations on the decoder and the encoder -/

/-- Settles O32: the lookup finds the opcode, then the operand split gives the instruction. -/
theorem decodeOfEncodeIsTheInstruction : Obligations.DecodeOfEncodeIsTheInstruction :=
  fun _ i rest h => decode_encode h i rest

/-- Settles O33: what was looked up is assigned the first byte, and what was split off is the operand bytes. -/
theorem encodeOfDecodedIsTheBytes : Obligations.EncodeOfDecodedIsTheBytes :=
  fun m _ _ i h => ⟨encode_of_decode h, encode_length m i⟩

/-- Settles O34: an unassigned byte at the decoder, at the step, and under the default map. -/
theorem unassignedOpcodesAreUnknown : Obligations.UnassignedOpcodesAreUnknown :=
  ⟨fun _ _ rest h => decode_unassigned h rest, Machine.step_unassigned_opcode, OpcodeMap.standard_unassigned_iff⟩

/-- Settles O31: the words are the encodings of their instructions under the default map. -/
theorem writtenWordsDecode : Obligations.WrittenWordsDecode :=
  have h := decode_encode OpcodeMap.standard_wf
  ⟨h .ret [], h (.push 7) [], h (.jne 0x30) [0x1A], h (.sub 2 3) [], h (.movRI 0 0xFF) [], h (.store 1 0x50) []⟩

end Sys2Proof

namespace Sys2Proof.Machine

/-! ### The step of an instruction whose bytes stand at the program counter -/

/-- Settles O29: the fetch decodes the window, and the step executes what was fetched. -/
theorem stepRunsTheDecodedInstruction : Obligations.StepRunsTheDecodedInstruction := by
  intro s i rest hs hd
  have hf : s.fetch = .ok i := by rw [State.fetch, hd]
  exact step_of_fetch s i hs.1 hs.2 hf

/-- A fetch sees the bytes at the program counter in their order. -/
theorem State.window_getElem? (s : State) {n : Nat} (hn : n < min 3 (s.cfg.memSize - s.pc.toNat)) :
    s.window[n]? = some (s.mem.read (s.pc.toNat + n)) := by
  obtain rfl | rfl | rfl : n = 0 ∨ n = 1 ∨ n = 2 := by omega
  · obtain ⟨rest, hw⟩ := s.window_head (by omega)
    rw [hw, List.getElem?_cons_zero, Nat.add_zero]
  · rw [s.window_eq, if_pos (show s.pc.toNat + 1 < s.cfg.memSize by omega)]
    split <;> rfl
  · rw [s.window_eq, if_pos (show s.pc.toNat + 2 < s.cfg.memSize by omega)]
    rfl

/-- Bytes that stand in memory at the program counter are the first that a fetch sees. -/
theorem State.window_starts_with (s : State) (bytes : List Byte) (h3 : bytes.length ≤ 3)
    (hin : s.pc.toNat + bytes.length ≤ s.cfg.memSize)
    (h : ∀ n (hn : n < bytes.length), s.mem.read (s.pc.toNat + n) = bytes[n]) : bytes <+: s.window := by
  rw [List.prefix_iff_getElem?]
  intro n hn
  rw [s.window_getElem? (by omega), h n hn]

/-- Settles O30: the encoding is the first that the fetch sees, so the decoder reads the instruction back from it. -/
theorem theBytesOfAnInstructionRunIt : Obligations.TheBytesOfAnInstructionRunIt := by
  intro s i hs hc hin hbytes
  obtain ⟨-, -, -, hm⟩ := s.cfg.wf_iff.mp hc
  have h3 : (encode s.cfg.opcodeMap i).length ≤ 3 := by
    have := i.opcode.operandCount_le
    rw [encode_length, Opcode.length]
    omega
  obtain ⟨rest, hw⟩ := s.window_starts_with _ h3 hin hbytes
  exact stepRunsTheDecodedInstruction s i rest hs (hw ▸ decode_encode hm i rest)

end Sys2Proof.Machine

/-!
PROOFS. What one instruction can do, with the instruction named: `exec_explained` refines `exec_cases` by what completes
it and by what makes it fault. The safety statements on single instructions are read off it, one case per shape.
-/

namespace Sys2Proof.Machine

/-! ### Effects by what they answer: a value with `P`, or a fault with `Q` -/

/-- The effect answers a value that satisfies `P` or a fault that satisfies `Q`. -/
def Yields {α : Type} (P : α → Prop) (Q : Fault → Prop) : Except Fault α → Prop
  | .ok a => P a
  | .error k => Q k

theorem Yields.bind {α β : Type} {P : α → Prop} {R : β → Prop} {Q : Fault → Prop} {x : Except Fault α}
    {f : α → Except Fault β} (hx : Yields P Q x) (hf : ∀ a, P a → Yields R Q (f a)) : Yields R Q (x >>= f) := by
  cases x with
  | ok a => exact hf a hx
  | error k => exact hx

/-- An effect yields what its two inversions say. -/
theorem yields_of {α : Type} {P : α → Prop} {Q : Fault → Prop} {x : Except Fault α} (hok : ∀ a, x = .ok a → P a)
    (herror : ∀ k, x = .error k → Q k) : Yields P Q x := by
  cases x with
  | ok a => exact hok a rfl
  | error k => exact herror k rfl

/-! ### What completes an instruction, and what makes it fault -/

/-- The shapes of the state that an instruction completes in, each with what it says of the instruction. -/
inductive CompletedBy (i : Instr) (s : State) : State → Prop where
  | wroteReg (j : RegIdx) (v : Byte) : CompletedBy i s ((s.setReg j v).advance i.opcode.length)
  | wroteMem (a : Nat) (v : Byte) (ha : a < s.cfg.memSize) (hi : storeAddress i s = some a) :
      CompletedBy i s ((s.setMem (s.mem.write a v)).advance i.opcode.length)
  | compared (r1 r2 a b : Byte) (hi : i = .cmp r1 r2) :
      CompletedBy i s ((s.setFlags (compareBytes a b)).advance i.opcode.length)
  | advanced : CompletedBy i s (s.advance i.opcode.length)
  | jumped (target : Byte) : CompletedBy i s (s.jump target)
  | pushed (v : Byte) (hf : s.stackFull = false) (ha : s.sp.toNat < s.cfg.memSize)
      (hi : storeAddress i s = some s.sp.toNat) : CompletedBy i s ((s.afterPush v).advance i.opcode.length)
  | called (v target : Byte) (hf : s.stackFull = false) (ha : s.sp.toNat < s.cfg.memSize)
      (hi : storeAddress i s = some s.sp.toNat) : CompletedBy i s ((s.afterPush v).jump target)
  | popped (j : RegIdx) (v : Byte) (he : s.stackEmpty = false) :
      CompletedBy i s (((s.setSp (s.sp + 1)).setReg j v).advance i.opcode.length)
  | returned (target : Byte) (he : s.stackEmpty = false) : CompletedBy i s ((s.setSp (s.sp + 1)).jump target)
  | emitted (v : Byte) : CompletedBy i s ((s.emit v).advance i.opcode.length)
  | halted : CompletedBy i s ((s.advance i.opcode.length).setStatus .halted)

/-- The conditions under which an instruction faults (R150). The last two hold in states that no run reaches. -/
inductive FaultCause (i : Instr) (s : State) : Fault → Prop where
  | badRegister (hi : i.wf = false) : FaultCause i s .invalidRegister
  | zeroDivisor (hi : i.opcode = .div) : FaultCause i s .divisionByZero
  | stackFull (hi : i.opcode = .push ∨ i.opcode = .call) : FaultCause i s .stackOverflow
  | stackEmpty (hi : i.opcode = .pop ∨ i.opcode = .ret) : FaultCause i s .stackUnderflow
  | dataAddress (a : Byte) (hi : mayRaise i.opcode .outOfBounds = true) (ha : s.cfg.memSize ≤ a.toNat) :
      FaultCause i s .outOfBounds
  | returnAddress (hi : i.opcode = .call) : FaultCause i s .outOfBounds
  | pushBeyond (ha : s.cfg.memSize ≤ s.sp.toNat) : FaultCause i s .outOfBounds
  | popBeyond (he : s.stackEmpty = false) (ha : s.cfg.memSize ≤ s.popAddress) : FaultCause i s .outOfBounds

/-- An effect that completes the instruction or faults for one of its causes. -/
abbrev EffectOf (i : Instr) (s : State) (e : Except Fault State) : Prop :=
  Yields (CompletedBy i s) (FaultCause i s) e

/-- A next state that completes the instruction, or that takes a fault for one of its causes. -/
inductive Explained (i : Instr) (s : State) : Result → Prop where
  | completed {t : State} (h : CompletedBy i s t) : Explained i s (.next t)
  | faulted {k : Fault} (h : FaultCause i s k) : Explained i s (.next { s with status := .faulted k })

theorem EffectOf.settled {i : Instr} {s : State} {e : Except Fault State} (h : EffectOf i s e) :
    Explained i s (s.settle e) := by
  cases e with
  | ok t => exact .completed h
  | error k => exact .faulted h

/-! ### The checks and the memory accesses -/

theorem regByteOk_eq_false_iff (r : Byte) : regByteOk r = false ↔ 8 ≤ r.toNat :=
  decide_eq_false_iff_not.trans Nat.not_lt

theorem regBytesOk_eq_false_iff (r1 r2 : Byte) :
    (regByteOk r1 && regByteOk r2) = false ↔ 8 ≤ r1.toNat ∨ 8 ≤ r2.toNat := by
  rw [Bool.and_eq_false_iff, regByteOk_eq_false_iff, regByteOk_eq_false_iff]

section Checks

variable {i : Instr} {s : State}

/-- A register byte is checked, then the rest of the effect follows. -/
theorem EffectOf.register {r : Byte} {f : RegIdx → Except Fault State} (hbad : 8 ≤ r.toNat → i.wf = false)
    (hf : ∀ j, regIndex r = .ok j → EffectOf i s (f j)) : EffectOf i s (regIndex r >>= f) :=
  (yields_of (fun _ h => h) fun _ h => by
    obtain ⟨hr, rfl⟩ := regIndex_error h
    exact .badRegister (hbad hr)).bind hf

/-- Two register bytes are checked, then the rest of the effect follows. -/
theorem EffectOf.registers {r1 r2 : Byte} {f : RegIdx → RegIdx → Except Fault State}
    (hwf : i.wf = (regByteOk r1 && regByteOk r2)) (hf : ∀ j k, regIndex r2 = .ok k → EffectOf i s (f j k)) :
    EffectOf i s (do let j ← regIndex r1; let k ← regIndex r2; f j k) :=
  .register (fun h => hwf.trans ((regBytesOk_eq_false_iff r1 r2).mpr (.inl h))) fun j _ =>
    .register (fun h => hwf.trans ((regBytesOk_eq_false_iff r1 r2).mpr (.inr h))) fun k hk => hf j k hk

/-- A condition is checked, then the rest of the effect follows. -/
theorem EffectOf.guarded {bad : Bool} {k : Fault} {f : Unit → Except Fault State} (hbad : FaultCause i s k)
    (hf : bad = false → EffectOf i s (f ())) : EffectOf i s (guardFault bad k >>= f) :=
  (yields_of (P := fun _ => bad = false) (fun _ h => guardFault_ok h) fun _ h => by
    obtain ⟨-, rfl⟩ := guardFault_error h
    exact hbad).bind fun _ => hf

theorem EffectOf.pushing {v : Byte} {f : State → Except Fault State}
    (hf : s.sp.toNat < s.cfg.memSize → EffectOf i s (f (s.afterPush v))) : EffectOf i s (s.push v >>= f) :=
  (yields_of (fun _ h => State.push_ok h) fun _ h => by
    obtain ⟨ha, rfl⟩ := State.push_error h
    exact .pushBeyond ha).bind fun _ ⟨ha, ht⟩ => ht ▸ hf ha

theorem EffectOf.popping {f : Byte × State → Except Fault State} (he : s.stackEmpty = false)
    (hf : EffectOf i s (f (s.mem.read s.popAddress, s.setSp (s.sp + 1)))) : EffectOf i s (s.pop >>= f) := by
  cases hp : s.pop with
  | ok p =>
    obtain ⟨-, hv, ht⟩ := State.pop_ok hp
    obtain rfl : p = (s.mem.read s.popAddress, s.setSp (s.sp + 1)) := Prod.ext hv ht
    exact hf
  | error k =>
    obtain ⟨ha, rfl⟩ := State.pop_error hp
    exact .popBeyond he ha

/-- A load of 3 bytes at the address that a byte holds. -/
theorem EffectOf.loading (j : RegIdx) (a : Byte) (hlen : i.opcode.length = 3)
    (hi : mayRaise i.opcode .outOfBounds = true) :
    EffectOf i s (s.loadFrom j a.toNat) := by
  refine yields_of (fun t h => ?_) fun k h => ?_
  · obtain ⟨-, rfl⟩ := State.loadFrom_ok h
    exact hlen ▸ .wroteReg ..
  · obtain ⟨ha, rfl⟩ := State.loadFrom_error h
    exact .dataAddress a hi ha

/-- A store of 3 bytes at the address that a byte holds. -/
theorem EffectOf.storing (j : RegIdx) (a : Byte) (hlen : i.opcode.length = 3)
    (hi : mayRaise i.opcode .outOfBounds = true) (hst : storeAddress i s = some a.toNat) :
    EffectOf i s (s.storeTo j a.toNat) := by
  refine yields_of (fun t h => ?_) fun k h => ?_
  · obtain ⟨ha, rfl⟩ := State.storeTo_ok h
    exact hlen ▸ .wroteMem _ _ ha hst
  · obtain ⟨ha, rfl⟩ := State.storeTo_error h
    exact .dataAddress a hi ha

/-- The operations of format R (R70, R71). -/
theorem explained_unaryOp {f : Byte → Byte} {r : Byte} (hwf : i.wf = regByteOk r) (hlen : i.opcode.length = 2) :
    Explained i s (s.unaryOp f r) :=
  EffectOf.settled (.register (fun h => hwf.trans ((regByteOk_eq_false_iff r).mpr h)) fun _ _ => hlen ▸ .wroteReg ..)

/-- The operations of format RR that write a register (R72 to R75, R81). -/
theorem explained_binaryOp {f : Byte → Byte → Except Fault Byte} {r1 r2 : Byte}
    (hwf : i.wf = (regByteOk r1 && regByteOk r2)) (hlen : i.opcode.length = 3)
    (hf : ∀ a b k, f a b = .error k → FaultCause i s k) : Explained i s (s.binaryOp f r1 r2) :=
  EffectOf.settled (.registers hwf fun _ _ _ =>
    (yields_of (P := fun _ => True) (fun _ _ => trivial) (hf _ _)).bind fun _ _ => hlen ▸ .wroteReg ..)

/-- The conditional jumps (R92 to R97). -/
theorem explained_branch (taken : Bool) (a : Byte) (hlen : i.opcode.length = 2) :
    Explained i s (s.branch taken a) := by
  cases taken with
  | true => exact .completed (.jumped a)
  | false => exact .completed (hlen ▸ .advanced)

end Checks

/-! ### Every instruction -/

/-- What executing each instruction can do. -/
theorem exec_explained (i : Instr) (s : State) : Explained i s (exec i s) := by
  cases i with
  | inc r => exact explained_unaryOp (f := incByte) rfl rfl
  | dec r => exact explained_unaryOp (f := decByte) rfl rfl
  | movRI r imm => exact EffectOf.settled (.register (regByteOk_eq_false_iff r).mpr fun _ _ => .wroteReg ..)
  | movRR r1 r2 => exact explained_binaryOp (f := fun _ b => .ok b) rfl rfl fun _ _ _ h => by cases h
  | add r1 r2 => exact explained_binaryOp (f := fun a b => .ok (addByte a b)) rfl rfl fun _ _ _ h => by cases h
  | sub r1 r2 => exact explained_binaryOp (f := fun a b => .ok (subByte a b)) rfl rfl fun _ _ _ h => by cases h
  | mul r1 r2 => exact explained_binaryOp (f := fun a b => .ok (mulByte a b)) rfl rfl fun _ _ _ h => by cases h
  | div r1 r2 =>
    refine explained_binaryOp (f := divByte) rfl rfl fun a b k h => ?_
    obtain ⟨-, rfl⟩ := divByte_error h
    exact .zeroDivisor rfl
  | load r a => exact EffectOf.settled (.register (regByteOk_eq_false_iff r).mpr fun j _ => .loading j a rfl rfl)
  | store r a =>
    exact EffectOf.settled (.register (regByteOk_eq_false_iff r).mpr fun j _ => .storing j a rfl rfl rfl)
  | ldxi r1 r2 =>
    exact EffectOf.settled (.registers rfl fun j k _ => .loading j (s.reg k) rfl rfl)
  | stxi r1 r2 =>
    refine EffectOf.settled (.registers rfl fun j k hk => .storing j (s.reg k) rfl rfl ?_)
    rw [storeAddress, hk]
    rfl
  | cmp r1 r2 => exact EffectOf.settled (.registers rfl fun _ _ _ => .compared r1 r2 _ _ rfl)
  | jmp a => exact .completed (.jumped a)
  | jeq a | jne a | jgt a | jlt a | jle a | jge a => exact explained_branch _ a rfl
  | push r =>
    exact EffectOf.settled (.register (regByteOk_eq_false_iff r).mpr fun _ _ =>
      .guarded (.stackFull (.inl rfl)) fun hf => .pushing fun ha => .pushed _ hf ha rfl)
  | pop r =>
    exact EffectOf.settled (.register (regByteOk_eq_false_iff r).mpr fun j _ =>
      .guarded (.stackEmpty (.inl rfl)) fun he => .popping he (.popped j _ he))
  | call a =>
    exact EffectOf.settled (.guarded (.stackFull (.inr rfl)) fun hf => .guarded (.returnAddress rfl) fun _ =>
      .pushing fun ha => .called _ a hf ha rfl)
  | ret =>
    exact EffectOf.settled (.guarded (.stackEmpty (.inr rfl)) fun he => .popping he (.returned _ he))
  | out r => exact EffectOf.settled (.register (regByteOk_eq_false_iff r).mpr fun _ _ => .emitted _)
  | hlt => exact .completed .halted
  | nop => exact .completed .advanced

theorem Explained.answers {i : Instr} {s : State} {r : Result} (h : Explained i s r) : ∃ t, r = .next t := by
  cases h with
  | completed | faulted => exact ⟨_, rfl⟩

/-- What an instruction that answers a next state has done. -/
theorem exec_inversion {i : Instr} {s t : State} (h : exec i s = .next t) :
    CompletedBy i s t ∨ ∃ k, FaultCause i s k ∧ t = { s with status := .faulted k } := by
  cases h ▸ exec_explained i s with
  | completed hd => exact .inl hd
  | faulted hk => exact .inr ⟨_, hk, rfl⟩

end Sys2Proof.Machine

/-!
PROOFS. The safety of single instructions (R11, R13, R18, R19, R30, R150), each read off `exec_explained` or
`exec_cases`.
-/

namespace Sys2Proof.Machine

/-! ### What a completed instruction leaves as it was -/

/-- The address of every byte that a completed instruction changes is the one it stores to (R30). -/
theorem CompletedBy.storeAddress_of_changed {i : Instr} {s t : State} (h : CompletedBy i s t) {a : Nat}
    (ha : t.mem.read a ≠ s.mem.read a) : storeAddress i s = some a := by
  cases h with
  | wroteMem b v _ hi =>
    have : a = b := by_contra fun hne => ha (s.mem.read_write_other b a v hne)
    rw [hi, this]
  | pushed v _ _ hi | called v _ _ _ hi =>
    have : a = s.sp.toNat := by_contra fun hne => ha (s.afterPush_read_other v a hne)
    rw [hi, this]
  | wroteReg | compared | advanced | jumped | popped | returned | emitted | halted => exact absurd rfl ha

theorem CompletedBy.flags_eq {i : Instr} {s t : State} (h : CompletedBy i s t) (hi : ∀ x y, i ≠ .cmp x y) :
    t.flags = s.flags := by
  cases h with
  | compared r1 r2 _ _ hcmp => exact absurd hcmp (hi r1 r2)
  | wroteReg | wroteMem | advanced | jumped | pushed | called | popped | returned | emitted | halted => rfl

/-- The status after a completed instruction: as before, or Halted (R20, R111). -/
theorem CompletedBy.status_cases {i : Instr} {s t : State} (h : CompletedBy i s t) :
    t.status = s.status ∨ t.status = .halted := by
  cases h with
  | halted => exact .inr rfl
  | wroteReg | wroteMem | compared | advanced | jumped | pushed | called | popped | returned | emitted =>
    exact .inl rfl

theorem CompletedBy.faultFree {i : Instr} {s t : State} (h : CompletedBy i s t) (hs : s.FaultFree) : t.FaultFree := by
  intro k hk
  rcases h.status_cases with hsame | hhalted
  · exact hs k (hsame ▸ hk)
  · cases hhalted ▸ hk

theorem CompletedBy.steps_eq {i : Instr} {s t : State} (h : CompletedBy i s t) : t.steps = s.steps + 1 := by
  cases h <;> rfl

theorem CompletedBy.parameters {i : Instr} {s t : State} (h : CompletedBy i s t) :
    t.cfg = s.cfg ∧ t.loaded = s.loaded := by
  cases h <;> exact ⟨rfl, rfl⟩

/-! ### The faults of an instruction -/

/-- The fault that an instruction takes has one of its causes. -/
theorem faultCause_of_exec {i : Instr} {s t : State} {k : Fault} (hs : s.FaultFree) (h : exec i s = .next t)
    (hk : t.status = .faulted k) : FaultCause i s k := by
  rcases exec_inversion h with hdone | ⟨k', hcause, rfl⟩
  · exact absurd hk (hdone.faultFree hs k)
  · cases hk
    exact hcause

/-- Only an instruction with a register operand can have a bad register byte. -/
theorem mayRaise_invalidRegister {i : Instr} (h : i.wf = false) : mayRaise i.opcode .invalidRegister = true := by
  cases i with
  | jmp | jeq | jne | jgt | jlt | jle | jge | call | ret | hlt | nop => cases h
  | inc | dec | movRI | movRR | add | sub | mul | div | load | store | ldxi | stxi | cmp | push | pop | out => rfl

/-- Under the invariant every cause of a fault is one that R150's table gives the opcode. -/
theorem FaultCause.mayRaise {i : Instr} {s : State} {k : Fault} (h : FaultCause i s k) (hinv : s.Inv) :
    mayRaise i.opcode k = true := by
  cases h with
  | badRegister hi => exact mayRaise_invalidRegister hi
  | zeroDivisor hi | returnAddress hi => rw [hi]; rfl
  | stackFull hi | stackEmpty hi => rcases hi with hi | hi <;> rw [hi] <;> rfl
  | dataAddress _ hi => exact hi
  | pushBeyond ha => exact absurd hinv.sp_inside (Nat.not_lt.mpr ha)
  | popBeyond he ha =>
    exact absurd (hinv.popAddress_inside (of_decide_eq_false he)) (Nat.not_lt.mpr ha)

/-- No byte is an address beyond a memory of 256 cells (R33). -/
theorem FaultCause.call_of_full_memory {i : Instr} {s : State} (h : FaultCause i s .outOfBounds) (hinv : s.Inv)
    (hfull : s.cfg.memSize = 256) : i.opcode = .call := by
  cases h with
  | returnAddress hi => exact hi
  | dataAddress a _ ha => have := a.isLt; omega
  | pushBeyond ha => exact absurd hinv.sp_inside (Nat.not_lt.mpr ha)
  | popBeyond he ha =>
    exact absurd (hinv.popAddress_inside (of_decide_eq_false he)) (Nat.not_lt.mpr ha)

/-! ### The check of the register bytes -/

/-- A register byte of 8 or more raises InvalidRegister before anything else is looked at (R53, R154). -/
theorem exec_badRegister {i : Instr} (h : i.wf = false) (s : State) :
    exec i s = .next { s with status := .faulted .invalidRegister } := by
  cases i with
  | inc r | dec r => exact s.unaryOp_invalid _ r ((regByteOk_eq_false_iff r).mp h)
  | movRI r | load r | store r | push r | pop r | out r =>
    exact s.settle_register_invalid _ r ((regByteOk_eq_false_iff r).mp h)
  | movRR r1 r2 | add r1 r2 | sub r1 r2 | mul r1 r2 | div r1 r2 =>
    have hbad : 8 ≤ r1.toNat ∨ 8 ≤ r2.toNat := (regBytesOk_eq_false_iff r1 r2).mp h
    simp only [exec_movRR, exec_add, exec_sub, exec_mul, exec_div, s.binaryOp_invalid _ r1 r2 hbad]
  | ldxi r1 r2 | stxi r1 r2 | cmp r1 r2 =>
    exact s.settle_registers_invalid _ r1 r2 ((regBytesOk_eq_false_iff r1 r2).mp h)
  | jmp | jeq | jne | jgt | jlt | jle | jge | call | ret | hlt | nop => cases h

/-! ### The run loop, by status (R182) -/

theorem step_ready {s : State} (h : s.status = .ready) : step s = .next { s with status := .running } := by
  simp [step, startRun, h, State.setStatus]

theorem step_limit {s : State} (h : s.status = .running) (hl : s.limitReached = true) :
    step s = .next { s with status := .stepLimit } := by
  simp [step, h, hl, State.setStatus]

theorem step_running {s : State} (h : s.AboutToFetch) : step s = runInstruction s := by
  simp [step, h.1, h.2]

/-- A terminal status is absorbing (log 5). -/
theorem step_terminal {s : State} (h : s.status.terminal = true) : step s = .next s := by
  cases hs : s.status with
  | ready | running => rw [hs] at h; cases h
  | halted | faulted | stepLimit => simp only [step, hs]

theorem State.limitReached_iff (s : State) : s.limitReached = true ↔ s.cfg.stepLimit = some s.steps :=
  decide_eq_true_iff

theorem State.limitReached_eq_false_iff (s : State) : s.limitReached = false ↔ s.cfg.stepLimit ≠ some s.steps :=
  decide_eq_false_iff_not

theorem runInstruction_answers (s : State) : ∃ t, runInstruction s = .next t := by
  unfold runInstruction
  split
  · exact (exec_explained _ s).answers
  · exact ⟨_, s.raise_eq _⟩

theorem step_answers (s : State) : ∃ t, step s = .next t := by
  cases hs : s.status with
  | ready => exact ⟨_, step_ready hs⟩
  | running =>
    cases hl : s.limitReached with
    | true => exact ⟨_, step_limit hs hl⟩
    | false => exact step_running ⟨hs, hl⟩ ▸ runInstruction_answers s
  | halted | faulted | stepLimit => exact ⟨s, step_terminal (by rw [hs]; rfl)⟩

/-! ### The parameters (R19) -/

theorem exec_parameters {i : Instr} {s t : State} (h : exec i s = .next t) : t.cfg = s.cfg ∧ t.loaded = s.loaded := by
  rcases exec_inversion h with hdone | ⟨k, -, rfl⟩
  · exact hdone.parameters
  · exact ⟨rfl, rfl⟩

theorem step_parameters {s t : State} (h : step s = .next t) : t.cfg = s.cfg ∧ t.loaded = s.loaded := by
  rcases step_cases h with ⟨x, rfl⟩ | ⟨i, -, -, hexec⟩
  · exact ⟨rfl, rfl⟩
  · exact exec_parameters hexec

/-! ### The obligations -/

/-- Settles O40: of the shapes of completion only CMP's writes the flags, and a fault writes the status. -/
theorem onlyCompareWritesFlags : Obligations.OnlyCompareWritesFlags := by
  intro i s t h hi
  rcases exec_inversion h with hdone | ⟨k, -, rfl⟩
  · exact hdone.flags_eq hi
  · rfl

/-- Settles O41: InvalidRegister has one cause, and that cause is looked at first. -/
theorem invalidRegisterExactlyOnBadBytes : Obligations.InvalidRegisterExactlyOnBadBytes := by
  refine ⟨fun i s h => exec_badRegister h s, fun i s t hwf hs h hk => ?_⟩
  cases faultCause_of_exec hs h hk with
  | badRegister hi => rw [hwf] at hi; cases hi

/-- Settles O42: the causes of an instruction's faults, under the invariant, are those of the table. -/
theorem faultsFollowTheTable : Obligations.FaultsFollowTheTable := by
  intro i s t k hinv hs h hk
  have hcause := faultCause_of_exec hs h hk
  exact ⟨hcause.mayRaise hinv, fun hfull hoob => (hoob ▸ hcause).call_of_full_memory hinv hfull⟩

/-- Settles O43: a fault changes no byte, and a completed instruction one at most. -/
theorem memoryChangesOnlyWhereStored : Obligations.MemoryChangesOnlyWhereStored := by
  intro i s t a h ha
  rcases exec_inversion h with hdone | ⟨k, -, rfl⟩
  · exact hdone.storeAddress_of_changed ha
  · exact absurd rfl ha

/-- Settles O45: the run loop at Ready, at its limit and below it. -/
theorem runLoopFollowsItsRule : Obligations.RunLoopFollowsItsRule :=
  ⟨fun _ => step_ready, fun s h hl => step_limit h (s.limitReached_iff.mpr hl),
    fun s h hl => step_running ⟨h, s.limitReached_eq_false_iff.mpr hl⟩⟩

/-- Settles O54: each answers a next state, and neither touches the parameters. -/
theorem everyStepAnswersAState : Obligations.EveryStepAnswersAState := by
  refine ⟨fun i s => ?_, fun s => ?_⟩
  · obtain ⟨t, ht⟩ := (exec_explained i s).answers
    exact ⟨t, ht, exec_parameters ht⟩
  · obtain ⟨t, ht⟩ := step_answers s
    exact ⟨t, ht, step_parameters ht⟩

/-- Settles O55: a completed instruction counts, a fault does not. -/
theorem stepsCountCompletedInstructions : Obligations.StepsCountCompletedInstructions := by
  intro i s t hs h
  rcases exec_inversion h with hdone | ⟨k, -, rfl⟩
  · exact .inl ⟨hdone.faultFree hs, hdone.steps_eq⟩
  · exact .inr ⟨⟨k, rfl⟩, rfl⟩

/-- Settles O26: HLT advances and halts, and its fetch needs no operand byte. -/
theorem hltEndsTheRun : Obligations.HltEndsTheRun :=
  ⟨rfl, fun s => ⟨(s.advance 1).setStatus .halted, rfl, rfl, rfl, fun _ => rfl, rfl, rfl, fun _ => rfl, rfl, rfl, rfl⟩,
    oneByteFetchRuns .hlt rfl⟩

end Sys2Proof.Machine

/-!
PROOFS. The invariant of R22 (10_state.md section 10): the reset state has it, every update that an instruction is made
of keeps it, and a fetched instruction ends inside memory, so that `pc` stays in its range.
-/

namespace Sys2Proof.Machine

/-! ### The updates keep the invariant -/

theorem State.Inv.completeAt {s : State} (h : s.Inv) {p : PcWord} (hp : p.toNat ≤ 256) : (s.completeAt p).Inv :=
  { h with pcOk := hp }

theorem State.Inv.jump {s : State} (h : s.Inv) (target : Byte) : (s.jump target).Inv :=
  h.completeAt (by rw [zext9_toNat]; exact target.isLt.le)

theorem State.Inv.advance {s : State} (h : s.Inv) {n : Nat} (hn : s.pc.toNat + n ≤ 256) : (s.advance n).Inv :=
  h.completeAt (by rw [BitVec.toNat_ofNat]; exact (Nat.mod_le _ _).trans hn)

theorem State.Inv.setReg {s : State} (h : s.Inv) (i : RegIdx) (v : Byte) : (s.setReg i v).Inv := { h with }

theorem State.Inv.emit {s : State} (h : s.Inv) (v : Byte) : (s.emit v).Inv := { h with }

theorem State.Inv.setStatus {s : State} (h : s.Inv) (x : Status) : (s.setStatus x).Inv := { h with }

theorem State.Inv.write {s : State} (h : s.Inv) {a : Nat} (ha : a < s.cfg.memSize) (v : Byte) :
    (s.setMem (s.mem.write a v)).Inv :=
  { h with
    memCanonical := s.mem.wf_write a v h.memCanonical
    memInside := s.mem.below_write a s.cfg.memSize v h.memInside ha }

/-- A comparison never sets both flags (R13). -/
theorem State.Inv.compared {s : State} (h : s.Inv) (a b : Byte) : (s.setFlags (compareBytes a b)).Inv :=
  { h with
    flagsOk := fun ⟨hz, hg⟩ => by
      rw [State.setFlags_flags, compareBytes_zero_iff] at hz
      rw [State.setFlags_flags, compareBytes_greater_iff] at hg
      omega }

theorem State.Inv.setSp {s : State} (h : s.Inv) {v : Byte} (hlow : s.cfg.stackLow ≤ v.toNat)
    (hhigh : v.toNat ≤ s.cfg.memSize - 1) : (s.setSp v).Inv :=
  { h with spLow := hlow, spHigh := hhigh }

/-- A push from a stack that is not full keeps `sp` in its range (R14). -/
theorem State.Inv.afterPush {s : State} (h : s.Inv) (hf : s.stackFull = false) (v : Byte) : (s.afterPush v).Inv := by
  have hsp := h.sp_pred (of_decide_eq_false hf)
  have hlow := h.spLow
  have hne : s.sp.toNat ≠ s.cfg.stackLow := of_decide_eq_false hf
  have hhigh := h.spHigh
  exact (h.write h.sp_inside v).setSp (show s.cfg.stackLow ≤ (s.sp - 1).toNat by omega)
    (show (s.sp - 1).toNat ≤ s.cfg.memSize - 1 by omega)

/-- A pop from a stack that is not empty keeps `sp` in its range (R14). -/
theorem State.Inv.afterPop {s : State} (h : s.Inv) (he : s.stackEmpty = false) : (s.setSp (s.sp + 1)).Inv := by
  have hne : s.sp.toNat ≠ s.cfg.memSize - 1 := of_decide_eq_false he
  have hsp : (s.sp + 1).toNat = s.sp.toNat + 1 := h.popAddress_eq hne
  have hlow := h.spLow
  have hhigh := h.spHigh
  exact h.setSp (by omega) (by omega)

/-! ### A completed instruction and a step -/

/-- A completed instruction keeps the invariant when its bytes lie inside the range of `pc`. -/
theorem CompletedBy.inv {i : Instr} {s t : State} (hdone : CompletedBy i s t) (h : s.Inv)
    (hpc : s.pc.toNat + i.opcode.length ≤ 256) : t.Inv := by
  cases hdone with
  | wroteReg j v => exact (h.setReg j v).advance hpc
  | wroteMem a v ha => exact (h.write ha v).advance hpc
  | compared _ _ a b => exact (h.compared a b).advance hpc
  | advanced => exact h.advance hpc
  | jumped target => exact h.jump target
  | pushed v hf => exact (h.afterPush hf v).advance hpc
  | called v target hf => exact (h.afterPush hf v).jump target
  | popped j v he => exact ((h.afterPop he).setReg j v).advance hpc
  | returned target he => exact (h.afterPop he).jump target
  | emitted v => exact (h.emit v).advance hpc
  | halted => exact (h.advance hpc).setStatus .halted

theorem CompletedBy.out_extends {i : Instr} {s t : State} (h : CompletedBy i s t) : s.out <+: t.out := by
  cases h with
  | emitted v => exact List.prefix_append s.out [v]
  | wroteReg | wroteMem | compared | advanced | jumped | pushed | called | popped | returned | halted =>
    exact List.prefix_rfl

/-- What a fetch answers was decoded from the bytes at `pc`. -/
theorem State.decode_of_fetch {s : State} {i : Instr} (h : s.fetch = .ok i) :
    ∃ rest, decode s.cfg.opcodeMap s.window = .ok (i, rest) := by
  unfold State.fetch at h
  split at h
  · cases h
    exact ⟨_, ‹_›⟩
  · cases h

/-- A fetched instruction lies inside memory (R55). -/
theorem State.fetch_inside {s : State} {i : Instr} (h : s.fetch = .ok i) :
    s.pc.toNat + i.opcode.length ≤ s.cfg.memSize := by
  obtain ⟨rest, hd⟩ := s.decode_of_fetch h
  have hlen := congrArg List.length (encode_of_decode hd)
  rw [s.window_length, List.length_append, encode_length] at hlen
  have hpos : 1 ≤ i.opcode.length := Nat.le_add_right 1 _
  omega

theorem step_inv {s t : State} (hinv : s.Inv) (h : step s = .next t) : t.Inv := by
  rcases step_cases h with ⟨x, rfl⟩ | ⟨i, -, hf, hexec⟩
  · exact hinv.setStatus x
  · rcases exec_inversion hexec with hdone | ⟨k, -, rfl⟩
    · obtain ⟨-, h256, -, -⟩ := hinv.ranges
      exact hdone.inv hinv ((State.fetch_inside hf).trans h256)
    · exact hinv.setStatus (.faulted k)

theorem step_out_extends {s t : State} (h : step s = .next t) : s.out <+: t.out := by
  rcases step_cases h with ⟨x, rfl⟩ | ⟨i, -, -, hexec⟩
  · exact List.prefix_rfl
  · rcases exec_inversion hexec with hdone | ⟨k, -, rfl⟩
    · exact hdone.out_extends
    · exact List.prefix_rfl

/-! ### Reset and load -/

theorem construct_wf {c : Config} (h : c.wf = true) : construct c = .next (.resetWith c) := if_pos h

theorem construct_not_wf {c : Config} (h : c.wf = false) : construct c = .refused .badConfiguration :=
  if_neg (by simp [h])

/-- In a configuration in range the reset value of `sp` is SP_INIT itself (R4). -/
theorem State.resetWith_sp_toNat {c : Config} (h : c.wf = true) : (State.resetWith c).sp.toNat = c.memSize - 1 := by
  obtain ⟨hpos, h256, -, -⟩ := c.wf_iff.mp h
  rw [State.resetWith_sp, BitVec.toNat_ofNat, Config.spInit]
  omega

theorem State.resetWith_inv {c : Config} (h : c.wf = true) : (State.resetWith c).Inv where
  cfgOk := h
  pcOk := Nat.zero_le 256
  spLow := by
    obtain ⟨-, -, hlow, -⟩ := c.wf_iff.mp h
    rw [State.resetWith_sp_toNat h]
    exact hlow
  spHigh := (State.resetWith_sp_toNat h).le
  flagsOk := fun ⟨hz, _⟩ => Bool.noConfusion hz
  memCanonical := rfl
  memInside := rfl

/-- What a successful load has checked and done (R181, R184). -/
theorem loadProgram_next {bytes : List Byte} {s t : State} (h : loadProgram bytes s = .next t) :
    s.status = .ready ∧ s.loaded = false ∧ bytes.length ≤ s.cfg.memSize ∧
      t = { s with mem := s.mem.load 0 bytes, loaded := true } := by
  unfold loadProgram at h
  split at h
  · cases h
  · split at h
    · cases h
    · split at h
      · cases h
      · cases h
        exact ⟨not_not.mp ‹_›, Bool.eq_false_iff.mpr ‹_›, Nat.not_lt.mp ‹_›, rfl⟩

theorem loadProgram_inv {bytes : List Byte} {s t : State} (hinv : s.Inv) (h : loadProgram bytes s = .next t) :
    t.Inv := by
  obtain ⟨-, -, hfits, rfl⟩ := loadProgram_next h
  exact { hinv with
    memCanonical := s.mem.wf_load 0 bytes hinv.memCanonical
    memInside := s.mem.below_load 0 s.cfg.memSize bytes hinv.memInside (by omega) }

/-! ### The obligations -/

/-- Settles O35: reset, load and step keep the invariant; the output only grows; a terminal status is absorbing. -/
theorem stepKeepsInvariant : Obligations.StepKeepsInvariant := by
  refine ⟨fun c s h => ?reset, fun bytes s t hinv h => loadProgram_inv hinv h, fun s t hinv h =>
    ⟨step_inv hinv h, step_out_extends h, fun hterm => ?terminal⟩⟩
  case reset =>
    cases hc : c.wf with
    | true =>
      rw [construct_wf hc] at h
      cases h
      exact State.resetWith_inv hc
    | false =>
      rw [construct_not_wf hc] at h
      cases h
  case terminal =>
    rw [step_terminal hterm] at h
    cases h
    rfl

/-- Settles O36: the default configuration is in range. -/
theorem resetMeetsInvariant : Obligations.ResetMeetsInvariant := State.resetWith_inv Config.standard_wf

/-- Settles O37: the fields of the reset state, and a refusal for each clause of a configuration's range. -/
theorem resetPutsEveryFieldAtItsValue : Obligations.ResetPutsEveryFieldAtItsValue := by
  refine ⟨fun c hc => ?fields, fun c hbad => construct_not_wf ?range, fun c j k hne hjk => construct_not_wf ?map⟩
  case fields =>
    exact ⟨_, construct_wf hc, rfl, State.resetWith_reg c, Memory.read_empty, rfl, State.resetWith_sp_toNat hc, rfl,
      rfl, rfl, rfl, rfl⟩
  case range =>
    refine Bool.eq_false_iff.mpr fun hc => ?_
    obtain ⟨hpos, h256, hlow, -⟩ := c.wf_iff.mp hc
    omega
  case map =>
    refine Bool.eq_false_iff.mpr fun hc => ?_
    obtain ⟨-, -, -, hm⟩ := c.wf_iff.mp hc
    exact hne (c.opcodeMap.byteOf_injective hm hjk)

/-- Settles O51: the status is looked at first, and a successful load leaves Ready and sets the load flag. -/
theorem hostOperationsOutOfTurnAreRefused : Obligations.HostOperationsOutOfTurnAreRefused := by
  refine ⟨fun s bytes h => ⟨if_pos h, if_neg h⟩, fun s bytes more t h => ?_⟩
  obtain ⟨hready, -, -, rfl⟩ := loadProgram_next h
  simp [loadProgram, hready]

end Sys2Proof.Machine

/-!
PROOFS. The two passes of 47_assembler.md (R120 to R134). What an assembled instruction is worth to both passes is said
once: its register bytes name registers, and pass 1 has counted its length. Labels keep the address of their definition.
-/

namespace Sys2Proof

/-! ### Which operand bytes of a format name registers (R52, R53) -/

/-- The operand bytes that stand in a register position of the format name registers. -/
def Format.registersOk : Format → Byte → Byte → Bool
  | .n, _, _ => true
  | .a, _, _ => true
  | .r, x, _ => regByteOk x
  | .rr, x, y => regByteOk x && regByteOk y
  | .ri, x, _ => regByteOk x
  | .ra, x, _ => regByteOk x

theorem Opcode.instr_wf (k : Opcode) (x y : Byte) : (k.instr x y).wf = k.format.registersOk x y := by
  cases k <;> rfl

end Sys2Proof

namespace Sys2Proof.Assembler

/-! ### Pass 2 on one line (R127, R129, R130) -/

/-- An instruction that pass 2 may emit for a mnemonic: it is well formed, and pass 1 counts its length. -/
def Emittable (m : Mnemonic) (i : Instr) : Prop := i.wf = true ∧ i.opcode.length = m.size

theorem emittable_op {k : Opcode} {x y : Byte} (h : k.format.registersOk x y = true) :
    Emittable (.op k) (k.instr x y) :=
  ⟨(k.instr_wf x y).trans h, by rw [k.instr_opcode, Mnemonic.size]⟩

theorem movInstr_emittable {line : Nat} {dst src : Text} {i : Instr} (h : movInstr line dst src = .ok i) :
    Emittable .mov i := by
  obtain ⟨r, hr, h⟩ := bind_answers h
  split at h
  · rename_i j hj
    cases h
    have hs : regOperand line src = .ok (BitVec.ofNat 8 j.val) := by rw [regOperand, hj]
    exact ⟨(Bool.and_eq_true _ _).mpr ⟨regOperand_wf hr, regOperand_wf hs⟩, rfl⟩
  · obtain ⟨v, -, h⟩ := bind_answers h
    cases h
    exact ⟨regOperand_wf hr, rfl⟩

theorem operandsInstr_emittable {labels : LabelTable} {line : Nat} {token : Text} {m : Mnemonic}
    {operands : List Text} {i : Instr} (h : operandsInstr labels line token m operands = .ok i) : Emittable m i := by
  unfold operandsInstr at h
  split at h
  · exact movInstr_emittable h
  · cases h
  · split at h
    case h_1 hk => cases h; exact emittable_op (by rw [hk]; rfl)
    case h_2 hk =>
      obtain ⟨r, hr, h⟩ := bind_answers h
      cases h
      exact emittable_op (by rw [hk]; exact regOperand_wf hr)
    case h_3 hk =>
      obtain ⟨a, -, h⟩ := bind_answers h
      cases h
      exact emittable_op (by rw [hk]; rfl)
    case h_4 hk =>
      obtain ⟨r, hr, h⟩ := bind_answers h
      obtain ⟨s, hs, h⟩ := bind_answers h
      cases h
      exact emittable_op (by rw [hk]; exact (Bool.and_eq_true _ _).mpr ⟨regOperand_wf hr, regOperand_wf hs⟩)
    case h_5 hk | h_6 hk =>
      obtain ⟨r, hr, h⟩ := bind_answers h
      obtain ⟨v, -, h⟩ := bind_answers h
      cases h
      exact emittable_op (by rw [hk]; exact regOperand_wf hr)
    case h_7 => cases h

/-- The bytes that a list of instructions takes. -/
def codeLength (is : List Instr) : Nat := (is.map fun i => i.opcode.length).sum

theorem codeLength_append (is js : List Instr) : codeLength (is ++ js) = codeLength is + codeLength js := by
  rw [codeLength, List.map_append, List.sum_append, codeLength, codeLength]

theorem length_flatMap_encode (m : OpcodeMap) (is : List Instr) : (is.flatMap (encode m)).length = codeLength is := by
  rw [List.length_flatMap, codeLength]
  simp only [encode_length]

/-- The instructions of a line are well formed, and pass 1 counts their length. -/
theorem lineInstr_answers {labels : LabelTable} {l : Line} {is : List Instr} (h : lineInstr labels l = .ok is) :
    (∀ i ∈ is, i.wf = true) ∧ lineSize l = .ok (codeLength is) := by
  unfold lineInstr at h
  unfold lineSize
  split at h
  case isTrue hb =>
    cases h
    exact ⟨fun _ hi => (List.not_mem_nil hi).elim, if_pos hb⟩
  case isFalse hb =>
    rw [if_neg hb]
    cases hm : mnemonicOf (mnemonicToken l.body) with
    | none => simp only [hm] at h; cases h
    | some m =>
      simp only [hm] at h ⊢
      obtain ⟨i, hi, h⟩ := bind_answers h
      cases h
      obtain ⟨hwf, hlen⟩ := operandsInstr_emittable hi
      exact ⟨fun j hj => List.mem_singleton.mp hj ▸ hwf, by rw [codeLength, ← hlen]; rfl⟩

theorem lineInstr_empty (labels : LabelTable) {l : Line} (h : l.body = []) : lineInstr labels l = .ok [] := if_pos h

/-! ### Both passes over all lines -/

theorem pass2_wf {labels : LabelTable} {ls : List Line} {is : List Instr} (h : pass2 labels ls = .ok is) :
    ∀ i ∈ is, i.wf = true := by
  induction ls generalizing is with
  | nil => cases h; exact fun _ hi => (List.not_mem_nil hi).elim
  | cons l rest ih =>
    obtain ⟨first, more, hfirst, hmore, rfl⟩ := pass2_cons_answers h
    intro i hi
    rcases List.mem_append.mp hi with hi | hi
    · exact (lineInstr_answers hfirst).1 i hi
    · exact ih hmore i hi

theorem pass2_empty {labels : LabelTable} {ls : List Line} {is : List Instr} (hempty : ∀ l ∈ ls, l.body = [])
    (h : pass2 labels ls = .ok is) : is = [] := by
  induction ls generalizing is with
  | nil => cases h; rfl
  | cons l rest ih =>
    obtain ⟨first, more, hfirst, hmore, rfl⟩ := pass2_cons_answers h
    rw [lineInstr_empty labels (hempty l List.mem_cons_self)] at hfirst
    cases hfirst
    exact ih (fun l' hl' => hempty l' (List.mem_cons_of_mem l hl')) hmore

/-- Pass 1 moves its counter by the length of what pass 2 emits, whatever table pass 2 uses (R128, R130). -/
theorem pass1_counter {table labels labels' : LabelTable} {ls : List Line} {is : List Instr} {c n : Nat}
    (h1 : pass1 ls labels c = .ok (labels', n)) (h2 : pass2 table ls = .ok is) : n = c + codeLength is := by
  induction ls generalizing labels c is with
  | nil => cases h1; cases h2; rfl
  | cons l rest ih =>
    obtain ⟨defined, size, -, hsize, hrest⟩ := pass1_cons_answers h1
    obtain ⟨first, more, hfirst, hmore, rfl⟩ := pass2_cons_answers h2
    have hn := ih hrest hmore
    obtain ⟨-, hsize'⟩ := lineInstr_answers hfirst
    cases hsize.symm.trans hsize'
    rw [codeLength_append]
    omega

/-! ### The label table (R123, R128) -/

/-- What a line's label definition does to the table. -/
theorem defineLabel_answers {labels more : LabelTable} {c : Nat} {l : Line} (h : defineLabel labels c l = .ok more) :
    (l.label = none ∧ more = labels) ∨
      ∃ name, l.label = some name ∧ labels.lookup name = none ∧ more = (name, c) :: labels := by
  unfold defineLabel at h
  split at h
  · cases h
    exact .inl ⟨‹_›, rfl⟩
  · rename_i name hname
    split at h
    · cases h
    · split at h
      · cases h
      · rename_i hnew
        cases h
        exact .inr ⟨name, hname, Option.not_isSome_iff_eq_none.mp hnew, rfl⟩

theorem defineLabel_defines {labels more : LabelTable} {c : Nat} {l : Line} {name : Text} (hl : l.label = some name)
    (h : defineLabel labels c l = .ok more) : more.lookup name = some c := by
  rcases defineLabel_answers h with ⟨hnone, -⟩ | ⟨name', hname, -, rfl⟩
  · cases hl.symm.trans hnone
  · cases hl.symm.trans hname
    exact List.lookup_cons_self

/-- A name in the table keeps its address: a second definition is an error. -/
theorem defineLabel_keeps {labels more : LabelTable} {c a : Nat} {l : Line} {name : Text}
    (hname : labels.lookup name = some a) (h : defineLabel labels c l = .ok more) : more.lookup name = some a := by
  rcases defineLabel_answers h with ⟨-, rfl⟩ | ⟨name', -, hnew, rfl⟩
  · exact hname
  · have hne : (name == name') = false := beq_eq_false_iff_ne.mpr (by rintro rfl; cases hname.symm.trans hnew)
    rw [List.lookup_cons, hne]
    exact hname

theorem pass1_keeps {ls : List Line} {labels labels' : LabelTable} {c n a : Nat} {name : Text}
    (hname : labels.lookup name = some a) (h : pass1 ls labels c = .ok (labels', n)) :
    labels'.lookup name = some a := by
  induction ls generalizing labels c with
  | nil => cases h; exact hname
  | cons l rest ih =>
    obtain ⟨more, size, hmore, -, hrest⟩ := pass1_cons_answers h
    exact ih (defineLabel_keeps hname hmore) hrest

/-- Pass 1 over two parts of a source is pass 1 over the first, then over the second. -/
theorem pass1_append_answers {before after : List Line} {labels : LabelTable} {c : Nat} {r : LabelTable × Nat}
    (h : pass1 (before ++ after) labels c = .ok r) :
    ∃ mid d, pass1 before labels c = .ok (mid, d) ∧ pass1 after mid d = .ok r := by
  induction before generalizing labels c with
  | nil => exact ⟨labels, c, rfl, h⟩
  | cons l rest ih =>
    obtain ⟨more, size, hmore, hsize, hrest⟩ := pass1_cons_answers h
    obtain ⟨mid, d, hmid, hafter⟩ := ih hrest
    exact ⟨mid, d, by rw [pass1, hmore, answer_bind, hsize, answer_bind, hmid], hafter⟩

/-! ### One operand in the address position, by format (R127, R131) -/

theorem operandsInstr_a {labels : LabelTable} {line : Nat} {mnemonic token : Text} {k : Opcode} (hk : k.format = .a) :
    operandsInstr labels line mnemonic (.op k) [token] =
      (addrOperand labels line token >>= fun a => .ok (k.instr a 0)) := by
  simp only [operandsInstr, hk]
  rfl

theorem operandsInstr_ra {labels : LabelTable} {line : Nat} {mnemonic token reg : Text} {k : Opcode} {r : Byte}
    (hk : k.format = .ra) (hr : regOperand line reg = .ok r) :
    operandsInstr labels line mnemonic (.op k) [reg, token] =
      (addrOperand labels line token >>= fun a => .ok (k.instr r a)) := by
  simp only [operandsInstr, hk, hr, answer_bind]
  rfl

/-- Where the address operand stands alone or after a register, the instruction is what the operand answers. -/
theorem operandsInstr_of_addrOperand {labels : LabelTable} {line : Nat} {mnemonic token reg : Text} {i : RegIdx}
    {e : Except AsmError Byte} (hreg : registerOf reg = some i) (ha : addrOperand labels line token = e) :
    (∀ k : Opcode, k.format = .a →
      operandsInstr labels line mnemonic (.op k) [token] = (e >>= fun a => .ok (k.instr a 0))) ∧
    (∀ k : Opcode, k.format = .ra →
      operandsInstr labels line mnemonic (.op k) [reg, token] =
        (e >>= fun a => .ok (k.instr (BitVec.ofNat 8 i.val) a))) :=
  ⟨fun _ hk => ha ▸ operandsInstr_a hk, fun _ hk => ha ▸ operandsInstr_ra hk (regOperand_register hreg)⟩

/-! ### The obligations -/

/-- Settles O57: pass 2 emits well-formed instructions, and none for a line without a body. -/
theorem assembledBytesAreWellFormedCode : Obligations.AssembledBytesAreWellFormedCode := by
  refine ⟨fun m src bytes h => ?_, fun m src bytes hempty h => ?_⟩
  · obtain ⟨labels, n, is, -, h2, rfl⟩ := assemble_answers h
    exact ⟨is, pass2_wf h2, rfl⟩
  · obtain ⟨labels, n, is, -, h2, rfl⟩ := assemble_answers h
    rw [pass2_empty hempty h2, List.flatMap_nil]

/-- Settles O58: both passes count the same lengths, line by line. -/
theorem assembledLengthIsTheFinalCounter : Obligations.AssembledLengthIsTheFinalCounter := by
  intro m src bytes h
  obtain ⟨labels, n, is, h1, h2, rfl⟩ := assemble_answers h
  have hn := pass1_counter h1 h2
  rw [Nat.zero_add] at hn
  exact ⟨labels, by rw [h1, hn, length_flatMap_encode]⟩

/-- Settles O59: the table keeps what a definition put in; a reference is the operand that the table resolves. -/
theorem aLabelResolvesToItsAddress : Obligations.ALabelResolvesToItsAddress := by
  refine ⟨fun before after l name labels n hl h => ?_, fun labels line mnemonic token reg i htoken hreg => ?_⟩
  · obtain ⟨earlier, c, hbefore, hrest⟩ := pass1_append_answers h
    obtain ⟨more, size, hmore, -, hafter⟩ := pass1_cons_answers hrest
    exact ⟨earlier, c, hbefore, pass1_keeps (defineLabel_defines hl hmore) hafter⟩
  · have ha := addrOperand_label labels line htoken
    refine ⟨fun c hc hfits => ?_, fun c hc hexceeds => ?_, fun hnone => ?_⟩
    · rw [hc, Option.elim, byteOperand_fits line token hfits] at ha
      exact operandsInstr_of_addrOperand hreg ha
    · rw [hc, Option.elim, byteOperand_exceeds line token hexceeds] at ha
      exact operandsInstr_of_addrOperand hreg ha
    · rw [hnone, Option.elim] at ha
      exact operandsInstr_of_addrOperand hreg ha

end Sys2Proof.Assembler

/-!
PROOFS. The listing of a well-formed program assembles back (R120 to R131). A listing line is words of letters and
digits between one blank and commas, so the lexer gives its words back; each word is then one operand again.
-/

namespace Sys2Proof.Assembler

/-! ### Words: letters and digits only -/

/-- A text of letters and digits, at least one. -/
def IsWord (t : Text) : Prop := t ≠ [] ∧ t.all Char.isAlphanum = true

theorem IsWord.alphanum {t : Text} (h : IsWord t) {c : Char} (hc : c ∈ t) : c.isAlphanum = true :=
  List.all_eq_true.mp h.2 c hc

theorem IsWord.not_mem {t : Text} (h : IsWord t) {d : Char} (hd : d.isAlphanum = false) : d ∉ t :=
  fun hmem => by cases hd.symm.trans (h.alphanum hmem)

theorem isBlank_of_alphanum {c : Char} (h : c.isAlphanum = true) : isBlank c = false := by
  rw [Bool.eq_false_iff]
  intro hb
  simp only [isBlank, Bool.or_eq_true, beq_iff_eq] at hb
  rcases hb with (rfl | rfl) | rfl <;> exact absurd h (by decide)

/-! ### The words of a listing, and what each is to the lexer -/

theorem mnemonicText_isWord (k : Opcode) : IsWord (mnemonicText k) := by
  cases k <;> exact ⟨by decide, rfl⟩

/-- The mnemonic that a listing spells for an opcode: both MOVs share one (R129). -/
def mnemonicFor (k : Opcode) : Mnemonic := if k = .movRI ∨ k = .movRR then .mov else .op k

theorem mnemonicOf_mnemonicText (k : Opcode) : mnemonicOf (mnemonicText k) = some (mnemonicFor k) := by
  cases k <;> decide

theorem digitChar_alphanum : ∀ n : Fin 16, (digitChar n).isAlphanum = true := by decide

theorem hexDigit_digitChar : ∀ n : Fin 16, hexDigit (digitChar n) = some n.val := by decide

theorem registerOf_digitChar : ∀ i : RegIdx, registerOf ['r', digitChar i.val] = some i := by decide

theorem regText_isWord {r : Byte} (h : regByteOk r = true) : IsWord (regText r) := by
  have hr : r.toNat < 8 := of_decide_eq_true h
  have hd : (digitChar r.toNat).isAlphanum = true := digitChar_alphanum ⟨r.toNat, by omega⟩
  exact ⟨List.cons_ne_nil _ _, by simp [regText, hd]⟩

theorem byteText_isWord (b : Byte) : IsWord (byteText b) := by
  have hb : b.toNat < 256 := b.isLt
  have hhigh : (digitChar (b.toNat / 16)).isAlphanum = true := digitChar_alphanum ⟨b.toNat / 16, by omega⟩
  have hlow : (digitChar (b.toNat % 16)).isAlphanum = true := digitChar_alphanum ⟨b.toNat % 16, by omega⟩
  exact ⟨List.cons_ne_nil _ _, by simp [byteText, hhigh, hlow]⟩

theorem registerOf_regText {r : Byte} (h : r.toNat < 8) : registerOf (regText r) = some ⟨r.toNat, h⟩ :=
  registerOf_digitChar ⟨r.toNat, h⟩

/-- A byte's literal is read as that byte (R126). -/
theorem literalOf_byteText (b : Byte) : literalOf (byteText b) = some b.toNat := by
  have hb : b.toNat < 256 := b.isLt
  have hhigh : hexDigit (digitChar (b.toNat / 16)) = some (b.toNat / 16) := hexDigit_digitChar ⟨b.toNat / 16, by omega⟩
  have hlow : hexDigit (digitChar (b.toNat % 16)) = some (b.toNat % 16) := hexDigit_digitChar ⟨b.toNat % 16, by omega⟩
  have hsum : b.toNat / 16 * 16 + b.toNat % 16 = b.toNat := by omega
  simp [literalOf, byteText, numberOf, digitsValue, hhigh, hlow, hsum]

theorem classify_byteText (b : Byte) : classify (byteText b) = .literal b.toNat := by
  have hr : registerOf (byteText b) = none := by
    simp [registerOf, registerTable, byteText, List.lookup]
  rw [classify, hr, literalOf_byteText]

theorem regOperand_regText {r : Byte} (h : regByteOk r = true) (line : Nat) : regOperand line (regText r) = .ok r := by
  have hr : r.toNat < 8 := of_decide_eq_true h
  rw [regOperand_register (registerOf_regText hr), BitVec.ofNat_toNat, BitVec.setWidth_eq]

theorem byteOperand_toNat (line : Nat) (token : Text) (b : Byte) : byteOperand line token b.toNat = .ok b := by
  rw [byteOperand_fits line token (Nat.le_of_lt_succ b.isLt), BitVec.ofNat_toNat, BitVec.setWidth_eq]

theorem immOperand_byteText (line : Nat) (b : Byte) : immOperand line (byteText b) = .ok b := by
  rw [immOperand, classify_byteText]
  exact byteOperand_toNat line _ b

theorem addrOperand_byteText (labels : LabelTable) (line : Nat) (b : Byte) :
    addrOperand labels line (byteText b) = .ok b := by
  rw [addrOperand, classify_byteText]
  exact byteOperand_toNat line _ b

/-! ### A line of a listing as a word and its arguments -/

/-- The operand tokens that a listing writes for a format's operand bytes. -/
def argTexts : Format → List Byte → List Text
  | .r, [x] => [regText x]
  | .a, [x] => [byteText x]
  | .rr, [x, y] => [regText x, regText y]
  | .ri, [x, y] => [regText x, byteText y]
  | .ra, [x, y] => [regText x, byteText y]
  | _, _ => []

/-- Arguments with one comma between two. -/
def joinCommas : Text → List Text → Text
  | a, [] => a
  | a, b :: rest => a ++ ',' :: joinCommas b rest

/-- The arguments of a line after its mnemonic: nothing, or one blank and the arguments. -/
def argsText : List Text → Text
  | [] => []
  | a :: rest => ' ' :: joinCommas a rest

theorem instrText_eq (i : Instr) :
    instrText i = mnemonicText i.opcode ++ argsText (argTexts i.opcode.format i.operands) := by
  cases i <;> rfl

theorem isWord_one {a : Text} (ha : IsWord a) : ∀ t ∈ [a], IsWord t := List.forall_mem_singleton.mpr ha

theorem isWord_two {a b : Text} (ha : IsWord a) (hb : IsWord b) : ∀ t ∈ [a, b], IsWord t :=
  List.forall_mem_cons.mpr ⟨ha, isWord_one hb⟩

/-- The operand tokens of a well-formed instruction are words. -/
theorem argTexts_isWord {i : Instr} (h : i.wf = true) : ∀ a ∈ argTexts i.opcode.format i.operands, IsWord a := by
  cases i with
  | inc r | dec r | push r | pop r | out r => exact isWord_one (regText_isWord h)
  | jmp a | jeq a | jne a | jgt a | jlt a | jle a | jge a | call a => exact isWord_one (byteText_isWord a)
  | movRI r b | load r b | store r b => exact isWord_two (regText_isWord h) (byteText_isWord b)
  | movRR r s | add r s | sub r s | mul r s | div r s | ldxi r s | stxi r s | cmp r s =>
    obtain ⟨hr, hs⟩ := (Bool.and_eq_true _ _).mp h
    exact isWord_two (regText_isWord hr) (regText_isWord hs)
  | ret | hlt | nop => exact List.forall_mem_nil _

/-! ### What the lexer does with joined words -/

theorem splitAtChar_of_not_mem {sep : Char} {t : Text} (h : sep ∉ t) : splitAtChar sep t = [t] := by
  induction t with
  | nil => rfl
  | cons c rest ih =>
    obtain ⟨hne, hrest⟩ := not_or.mp (List.mem_cons.not.mp h)
    simp only [splitAtChar, if_neg (Ne.symm hne), ih hrest]

theorem splitAtChar_append {sep : Char} {t : Text} (h : sep ∉ t) (rest : Text) :
    splitAtChar sep (t ++ sep :: rest) = t :: splitAtChar sep rest := by
  induction t with
  | nil => simp [splitAtChar]
  | cons c t ih =>
    obtain ⟨hne, ht⟩ := not_or.mp (List.mem_cons.not.mp h)
    simp only [List.cons_append, splitAtChar, if_neg (Ne.symm hne), ih ht]

theorem splitAtChar_joinCommas {a : Text} {rest : List Text} (ha : IsWord a) (hrest : ∀ b ∈ rest, IsWord b) :
    splitAtChar ',' (joinCommas a rest) = a :: rest := by
  induction rest generalizing a with
  | nil => exact splitAtChar_of_not_mem (ha.not_mem (by decide))
  | cons b rest ih =>
    obtain ⟨hb, hrest⟩ := List.forall_mem_cons.mp hrest
    rw [joinCommas, splitAtChar_append (ha.not_mem (by decide)), ih hb hrest]

/-- A text that neither begins nor ends with a blank. -/
def NoOuterBlank (t : Text) : Prop := (∀ c ∈ t.head?, isBlank c = false) ∧ ∀ c ∈ t.getLast?, isBlank c = false

theorem dropWhile_of_head? {t : Text} (h : ∀ c ∈ t.head?, isBlank c = false) : t.dropWhile isBlank = t := by
  cases t with
  | nil => rfl
  | cons c rest => simp [h c rfl]

theorem NoOuterBlank.trim_eq {t : Text} (h : NoOuterBlank t) : trim t = t := by
  obtain ⟨hhead, hlast⟩ := h
  have hrev : t.reverse.dropWhile isBlank = t.reverse := dropWhile_of_head? (by rwa [List.head?_reverse])
  rw [trim, dropWhile_of_head? hhead, hrev, List.reverse_reverse]

theorem IsWord.noOuterBlank {t : Text} (h : IsWord t) : NoOuterBlank t :=
  ⟨fun _ hc => isBlank_of_alphanum (h.alphanum (List.mem_of_head? hc)),
    fun _ hc => isBlank_of_alphanum (h.alphanum (List.mem_of_getLast? hc))⟩

/-- Two texts joined by anything keep the outer ends. -/
theorem NoOuterBlank.append {t u : Text} (ht : NoOuterBlank t) (hu : NoOuterBlank u) (hne : t ≠ []) (hne' : u ≠ [])
    (mid : Text) : NoOuterBlank (t ++ mid ++ u) := by
  obtain ⟨hthead, -⟩ := ht
  obtain ⟨-, hulast⟩ := hu
  refine ⟨?_, ?_⟩
  · rwa [List.append_assoc, List.head?_append_of_ne_nil _ hne]
  · rwa [List.getLast?_append_of_ne_nil _ hne']

theorem joinCommas_ne_nil {a : Text} (rest : List Text) (ha : a ≠ []) : joinCommas a rest ≠ [] := by
  cases rest with
  | nil => exact ha
  | cons b rest => exact List.append_ne_nil_of_left_ne_nil ha _

theorem noOuterBlank_joinCommas {a : Text} {rest : List Text} (ha : IsWord a) (hrest : ∀ b ∈ rest, IsWord b) :
    NoOuterBlank (joinCommas a rest) := by
  induction rest generalizing a with
  | nil => exact ha.noOuterBlank
  | cons b rest ih =>
    obtain ⟨hb, hrest⟩ := List.forall_mem_cons.mp hrest
    have := ha.noOuterBlank.append (ih hb hrest) ha.1 (joinCommas_ne_nil rest hb.1) [',']
    rwa [List.append_assoc] at this

/-- A character of a listing line that is no letter and no digit is the blank or a comma. -/
theorem alphanum_of_mem_joinCommas {a : Text} {rest : List Text} (ha : IsWord a) (hrest : ∀ b ∈ rest, IsWord b)
    {c : Char} (hc : c ∈ joinCommas a rest) : c.isAlphanum = true ∨ c = ',' := by
  induction rest generalizing a with
  | nil => exact .inl (ha.alphanum hc)
  | cons b rest ih =>
    obtain ⟨hb, hrest⟩ := List.forall_mem_cons.mp hrest
    rcases List.mem_append.mp hc with hc | hc
    · exact .inl (ha.alphanum hc)
    · rcases List.mem_cons.mp hc with rfl | hc
      · exact .inr rfl
      · exact ih hb hrest hc

section Line

variable {w : Text} {as : List Text}

theorem not_mem_line (hw : IsWord w) (has : ∀ a ∈ as, IsWord a) {d : Char} (hd : d.isAlphanum = false)
    (hblank : d ≠ ' ') (hcomma : d ≠ ',') : d ∉ w ++ argsText as := by
  intro hmem
  rcases List.mem_append.mp hmem with hmem | hmem
  · exact hw.not_mem hd hmem
  · cases as with
    | nil => cases hmem
    | cons a rest =>
      obtain ⟨ha, hrest⟩ := List.forall_mem_cons.mp has
      rcases List.mem_cons.mp hmem with rfl | hmem
      · exact hblank rfl
      · rcases alphanum_of_mem_joinCommas ha hrest hmem with h | h
        · cases hd.symm.trans h
        · exact hcomma h

theorem noOuterBlank_line (hw : IsWord w) (has : ∀ a ∈ as, IsWord a) : NoOuterBlank (w ++ argsText as) := by
  cases as with
  | nil => rw [argsText, List.append_nil]; exact hw.noOuterBlank
  | cons a rest =>
    obtain ⟨ha, hrest⟩ := List.forall_mem_cons.mp has
    have := hw.noOuterBlank.append (noOuterBlank_joinCommas ha hrest) hw.1 (joinCommas_ne_nil rest ha.1) [' ']
    rwa [List.append_assoc] at this

theorem cleanLine_line (hw : IsWord w) (has : ∀ a ∈ as, IsWord a) :
    cleanLine (w ++ argsText as) = w ++ argsText as := by
  have hsemi : (w ++ argsText as).takeWhile (fun c => c != ';') = w ++ argsText as := by
    rw [List.takeWhile_eq_self_iff]
    intro c hc
    exact bne_iff_ne.mpr (by rintro rfl; exact not_mem_line hw has (by decide) (by decide) (by decide) hc)
  rw [cleanLine, hsemi, (noOuterBlank_line hw has).trim_eq]

/-- A line without a colon has no label definition (R122). -/
theorem parseLine_of_not_mem {t : Text} (h : ':' ∉ t) (n : Nat) : parseLine n t = ⟨n, none, t⟩ := by
  unfold parseLine
  simp only
  split
  · rfl
  · rename_i c rest heq
    have hc : c ∈ t := List.mem_of_mem_drop ((List.dropWhile_sublist _).mem (heq ▸ List.mem_cons_self))
    exact if_neg fun ⟨hcolon, _⟩ => h (hcolon ▸ hc)

theorem blank_split_line (hw : IsWord w) :
    (w ++ argsText as).takeWhile (fun c => !isBlank c) = w ∧
      (w ++ argsText as).dropWhile (fun c => !isBlank c) = argsText as := by
  have hword : ∀ c ∈ w, (!isBlank c) = true := fun c hc => by rw [isBlank_of_alphanum (hw.alphanum hc)]; rfl
  rw [List.takeWhile_append_of_pos hword, List.dropWhile_append_of_pos hword]
  cases as with
  | nil => exact ⟨List.append_nil w, rfl⟩
  | cons a rest => exact ⟨List.append_nil w, rfl⟩

theorem mnemonicToken_line (hw : IsWord w) : mnemonicToken (w ++ argsText as) = w := (blank_split_line hw).1

theorem operandTokens_line (hw : IsWord w) (has : ∀ a ∈ as, IsWord a) : operandTokens (w ++ argsText as) = as := by
  unfold operandTokens
  simp only [(blank_split_line (as := as) hw).2]
  cases as with
  | nil => rfl
  | cons a rest =>
    obtain ⟨ha, hrest⟩ := List.forall_mem_cons.mp has
    have htrim : trim (argsText (a :: rest)) = joinCommas a rest := (noOuterBlank_joinCommas ha hrest).trim_eq
    rw [htrim, if_neg (joinCommas_ne_nil rest ha.1), splitAtChar_joinCommas ha hrest]
    exact (List.map_congr_left fun b hb => (has b hb).noOuterBlank.trim_eq).trans (List.map_id' _)

end Line

/-! ### The lines of a listing -/

/-- A source line that holds the text of an instruction and no label. -/
def Line.Shows (l : Line) (i : Instr) : Prop := l.label = none ∧ l.body = instrText i

theorem instrText_ne_nil (i : Instr) : instrText i ≠ [] := by
  rw [instrText_eq]
  exact List.append_ne_nil_of_left_ne_nil (mnemonicText_isWord i.opcode).1 _

theorem not_mem_instrText {i : Instr} (h : i.wf = true) {d : Char} (hd : d.isAlphanum = false) (hblank : d ≠ ' ')
    (hcomma : d ≠ ',') : d ∉ instrText i := by
  rw [instrText_eq]
  exact not_mem_line (mnemonicText_isWord i.opcode) (argTexts_isWord h) hd hblank hcomma

theorem cleanLine_instrText {i : Instr} (h : i.wf = true) : cleanLine (instrText i) = instrText i := by
  rw [instrText_eq]
  exact cleanLine_line (mnemonicText_isWord i.opcode) (argTexts_isWord h)

/-- The pieces of a listing between line feeds: the texts, then the empty piece after the last line feed. -/
theorem splitAtChar_listing {is : List Instr} (h : ∀ i ∈ is, i.wf = true) :
    splitAtChar '\n' (listing is) = is.map instrText ++ [[]] := by
  induction is with
  | nil => rfl
  | cons i rest ih =>
    obtain ⟨hi, hrest⟩ := List.forall_mem_cons.mp h
    have hlist : listing (i :: rest) = instrText i ++ '\n' :: listing rest := by
      rw [listing, List.flatMap_cons, List.append_assoc]
      rfl
    rw [hlist, splitAtChar_append (not_mem_instrText hi (by decide) (by decide) (by decide)), ih hrest]
    rfl

theorem cleanLine_pieces {is : List Instr} (h : ∀ i ∈ is, i.wf = true) :
    (is.map instrText ++ [[]]).map cleanLine = is.map instrText ++ [[]] := by
  rw [List.map_append, List.map_map]
  exact congrArg (· ++ [[]]) (List.map_congr_left fun i hi => cleanLine_instrText (h i hi))

theorem sourceLines_listing {is : List Instr} (h : ∀ i ∈ is, i.wf = true) :
    List.Forall₂ Line.Shows (sourceLines (listing is)) is := by
  rw [sourceLines, splitAtChar_listing h, cleanLine_pieces h]
  generalize 1 = n
  induction is generalizing n with
  | nil => exact .nil
  | cons i rest ih =>
    obtain ⟨hi, hrest⟩ := List.forall_mem_cons.mp h
    have hparse : parseLine n (instrText i) = ⟨n, none, instrText i⟩ :=
      parseLine_of_not_mem (not_mem_instrText hi (by decide) (by decide) (by decide)) n
    rw [List.map_cons, List.cons_append, List.zipIdx_cons, List.filterMap_cons]
    simp only [if_neg (instrText_ne_nil i), hparse]
    exact .cons ⟨rfl, rfl⟩ (ih hrest (n + 1))

/-! ### The instruction of a line that shows one -/

theorem operandsInstr_r {labels : LabelTable} {line : Nat} {mnemonic x : Text} {k : Opcode} {r : Byte}
    (hk : k.format = .r) (hx : regOperand line x = .ok r) :
    operandsInstr labels line mnemonic (.op k) [x] = .ok (k.instr r 0) := by
  simp only [operandsInstr, hk, hx]
  rfl

theorem operandsInstr_rr {labels : LabelTable} {line : Nat} {mnemonic x y : Text} {k : Opcode} {r s : Byte}
    (hk : k.format = .rr) (hx : regOperand line x = .ok r) (hy : regOperand line y = .ok s) :
    operandsInstr labels line mnemonic (.op k) [x, y] = .ok (k.instr r s) := by
  simp only [operandsInstr, hk, hx, hy]
  rfl

theorem movInstr_register {line : Nat} {dst src : Text} {r : Byte} {j : RegIdx} (hdst : regOperand line dst = .ok r)
    (hsrc : registerOf src = some j) : movInstr line dst src = .ok (.movRR r (BitVec.ofNat 8 j.val)) := by
  rw [movInstr, hdst, answer_bind, classify_register hsrc]
  rfl

theorem movInstr_literal {line : Nat} {dst : Text} {r : Byte} (hdst : regOperand line dst = .ok r) (b : Byte) :
    movInstr line dst (byteText b) = .ok (.movRI r b) := by
  rw [movInstr, hdst, answer_bind, classify_byteText, immOperand_byteText]
  rfl

/-- The operand tokens that a listing writes are the operands of the instruction again. -/
theorem operandsInstr_argTexts {i : Instr} (h : i.wf = true) (labels : LabelTable) (line : Nat) (token : Text) :
    operandsInstr labels line token (mnemonicFor i.opcode) (argTexts i.opcode.format i.operands) = .ok i := by
  cases i with
  | inc r | dec r | push r | pop r | out r => exact operandsInstr_r rfl (regOperand_regText h line)
  | jmp a | jeq a | jne a | jgt a | jlt a | jle a | jge a | call a =>
    exact (operandsInstr_a rfl).trans (by rw [addrOperand_byteText, answer_bind]; rfl)
  | load r a | store r a =>
    exact (operandsInstr_ra rfl (regOperand_regText h line)).trans (by rw [addrOperand_byteText, answer_bind]; rfl)
  | add r s | sub r s | mul r s | div r s | ldxi r s | stxi r s | cmp r s =>
    obtain ⟨hr, hs⟩ := (Bool.and_eq_true _ _).mp h
    exact operandsInstr_rr rfl (regOperand_regText hr line) (regOperand_regText hs line)
  | movRI r b => exact movInstr_literal (regOperand_regText h line) b
  | movRR r s =>
    obtain ⟨hr, hs⟩ := (Bool.and_eq_true _ _).mp h
    have hmov := movInstr_register (regOperand_regText hr line) (registerOf_regText (of_decide_eq_true hs))
    rw [BitVec.ofNat_toNat, BitVec.setWidth_eq] at hmov
    exact hmov
  | ret | hlt | nop => rfl

theorem lineInstr_shows {l : Line} {i : Instr} (hl : l.Shows i) (h : i.wf = true) (labels : LabelTable) :
    lineInstr labels l = .ok [i] := by
  obtain ⟨-, hbody⟩ := hl
  have hw := mnemonicText_isWord i.opcode
  have hmn : mnemonicToken l.body = mnemonicText i.opcode := by rw [hbody, instrText_eq, mnemonicToken_line hw]
  have hargs : operandTokens l.body = argTexts i.opcode.format i.operands := by
    rw [hbody, instrText_eq, operandTokens_line hw (argTexts_isWord h)]
  rw [lineInstr, if_neg (hbody ▸ instrText_ne_nil i), hmn, hargs, mnemonicOf_mnemonicText]
  simp only [operandsInstr_argTexts h]
  rfl

/-! ### Both passes over a listing -/

theorem pass2_listing {ls : List Line} {is : List Instr} (hls : List.Forall₂ Line.Shows ls is)
    (h : ∀ i ∈ is, i.wf = true) (labels : LabelTable) : pass2 labels ls = .ok is := by
  induction hls with
  | nil => rfl
  | cons hl _ ih =>
    obtain ⟨hi, hrest⟩ := List.forall_mem_cons.mp h
    rw [pass2, lineInstr_shows hl hi, answer_bind, ih hrest]
    rfl

theorem pass1_listing {ls : List Line} {is : List Instr} (hls : List.Forall₂ Line.Shows ls is)
    (h : ∀ i ∈ is, i.wf = true) (labels : LabelTable) (c : Nat) : ∃ n, pass1 ls labels c = .ok (labels, n) := by
  induction hls generalizing c with
  | nil => exact ⟨c, rfl⟩
  | @cons l i _ _ hl _ ih =>
    obtain ⟨hi, hrest⟩ := List.forall_mem_cons.mp h
    obtain ⟨-, hsize⟩ := lineInstr_answers (lineInstr_shows hl hi labels)
    obtain ⟨n, hn⟩ := ih hrest (c + codeLength [i])
    have hdefine : defineLabel labels c l = .ok labels := by rw [defineLabel, hl.1]
    exact ⟨n, by rw [pass1, hdefine, answer_bind, hsize, answer_bind, hn]⟩

/-- Settles O60: the lines of a listing show its instructions, and each pass reads a line as it was written. -/
theorem aListingAssemblesBack : Obligations.AListingAssemblesBack := by
  intro m is h
  have hls := sourceLines_listing h
  obtain ⟨n, h1⟩ := pass1_listing hls h [] 0
  have his : assembleInstrs (listing is) = .ok is := by
    rw [assembleInstrs, h1, answer_bind]
    exact pass2_listing hls h []
  rw [assemble, his]

end Sys2Proof.Assembler

/-!
PROOFS. Memory as cells and as code (R15, R30, R40, R99 to R105): canonical memories are their bytes, a stored byte is
what a later fetch decodes, and what a jump beyond memory, a CALL with its RET, and a row of PUSHes do.
-/

namespace Sys2Proof.Machine

/-! ### A canonical list of cells is determined by what it reads (log 2) -/

/-- The first listed cell of a canonical list is no unlisted byte, and the cells after it lie above. -/
theorem cellsRise_cons {lo a : Nat} {v : Byte} {rest : List Host.Cell} (h : cellsRise lo ((a, v) :: rest) = true) :
    v ≠ unlistedByte ∧ cellsRise (a + 1) rest = true := by
  simp only [cellsRise, Bool.and_eq_true, decide_eq_true_eq] at h
  obtain ⟨⟨-, hv⟩, hrest⟩ := h
  exact ⟨hv, hrest⟩

theorem readCells_head (a : Nat) (v : Byte) (rest : List Host.Cell) : readCells ((a, v) :: rest) a = v := by
  rw [readCells_cons, if_pos rfl]

/-- Two canonical lists that read the same have their first cells at the same address. -/
theorem head_le_of_reads {lo lo' a b : Nat} {v w : Byte} {cs ds : List Host.Cell}
    (hc : cellsRise lo ((a, v) :: cs) = true) (hd : cellsRise lo' ((b, w) :: ds) = true)
    (h : ∀ x, readCells ((a, v) :: cs) x = readCells ((b, w) :: ds) x) : b ≤ a := by
  by_contra hlt
  obtain ⟨hv, -⟩ := cellsRise_cons hc
  obtain ⟨-, hds⟩ := cellsRise_cons hd
  have hread := h a
  rw [readCells_head, readCells_cons, if_neg (by omega), readCells_below (b + 1) a ds hds (by omega)] at hread
  exact hv hread

/-- A canonical list that lists a cell reads something there that an empty list does not. -/
theorem not_reads_as_nil {lo a : Nat} {v : Byte} {cs : List Host.Cell} (hc : cellsRise lo ((a, v) :: cs) = true)
    (h : ∀ x, readCells ((a, v) :: cs) x = unlistedByte) : False := by
  obtain ⟨hv, -⟩ := cellsRise_cons hc
  exact hv ((readCells_head a v cs).symm.trans (h a))

theorem cells_eq_of_reads {lo lo' : Nat} {cs ds : List Host.Cell} (hc : cellsRise lo cs = true)
    (hd : cellsRise lo' ds = true) (h : ∀ x, readCells cs x = readCells ds x) : cs = ds := by
  induction cs generalizing lo lo' ds with
  | nil =>
    cases ds with
    | nil => rfl
    | cons d ds => exact (not_reads_as_nil hd fun x => (h x).symm).elim
  | cons c cs ih =>
    cases ds with
    | nil => exact (not_reads_as_nil hc h).elim
    | cons d ds =>
      obtain ⟨a, v⟩ := c
      obtain ⟨b, w⟩ := d
      obtain rfl : a = b := Nat.le_antisymm (head_le_of_reads hd hc fun x => (h x).symm) (head_le_of_reads hc hd h)
      obtain rfl : v = w := by simpa only [readCells_head] using h a
      obtain ⟨-, hcs⟩ := cellsRise_cons hc
      obtain ⟨-, hds⟩ := cellsRise_cons hd
      have htail : ∀ x, readCells cs x = readCells ds x := by
        intro x
        by_cases hx : x = a
        · rw [hx, readCells_below (a + 1) a cs hcs (by omega), readCells_below (a + 1) a ds hds (by omega)]
        · simpa only [readCells_cons, if_neg hx] using h x
      rw [ih hcs hds htail]

/-- Settles O44: the lists of cells agree from the first cell on. -/
theorem canonicalMemoriesAreTheirBytes : Obligations.CanonicalMemoriesAreTheirBytes := by
  intro m n hm hn h
  exact congrArg Memory.mk (cells_eq_of_reads hm hn h)

/-! ### A byte in memory is the opcode of a fetch at its address (R40) -/

/-- The checks of R55 see whatever byte stands in the cell. -/
theorem fetchSees_of_read {t : State} {ea : Nat} {b : Byte} (hc : t.cfg.wf = true) (hin : ea < t.cfg.memSize)
    (hb : t.mem.read ea = b) : FetchSees t ea b := by
  intro v hmem hcfg hv hpc
  subst hpc
  have hread : v.mem.read v.pc.toNat = b := by rw [hmem, hb]
  have hin : v.pc.toNat < v.cfg.memSize := by rw [hcfg]; exact hin
  refine ⟨fun hu => step_unassigned_opcode v hv hin (by rwa [hread]), fun k hk => ?_⟩
  exact step_assigned_opcode v hv (by rwa [hcfg]) k hin (by rw [hk, hread])

/-- A store that completes is seen by a fetch at its address. -/
theorem State.Inv.storeTo_seen {s : State} (h : s.Inv) (i : RegIdx) {ea : Nat} (hin : ea < s.cfg.memSize) :
    ∃ t, s.settle (s.storeTo i ea) = .next t ∧ FetchSees t ea (s.reg i) := by
  have hread : (s.mem.write ea (s.reg i)).read ea = s.reg i := s.mem.read_write_same ea (s.reg i) h.memCanonical
  rw [s.storeTo_inside i ea hin, s.settle_ok]
  exact ⟨_, rfl, fetchSees_of_read h.cfgOk hin hread⟩

/-- A pushed byte is seen by a fetch at the old stack pointer, wherever the program goes on. -/
theorem State.Inv.push_seen {s : State} (h : s.Inv) (v : Byte) (p : PcWord) :
    FetchSees ((s.afterPush v).completeAt p) s.sp.toNat v :=
  fetchSees_of_read h.cfgOk h.sp_inside (h.afterPush_read_same v)

/-- Settles O49: each storing instruction leaves the byte where the fetch reads it. -/
theorem aStoredByteIsFetched : Obligations.AStoredByteIsFetched := by
  intro s h
  refine ⟨fun r a i hr hin => ?store, fun r1 r2 i j h1 h2 hin => ?stxi, fun r i hr hfree =>
    ⟨_, exec_push_free r i h hr hfree, h.push_seen _ _⟩, fun a hfree hpc =>
    ⟨_, exec_call_free a h hfree hpc, h.push_seen _ _⟩⟩
  case store =>
    rw [exec_store, s.settle_register_valid _ r i hr]
    exact h.storeTo_seen i hin
  case stxi =>
    rw [exec_stxi, s.settle_registers_valid _ r1 r2 i j h1 h2]
    exact h.storeTo_seen i hin

/-! ### Jumps: beyond memory, and back from a CALL -/

/-- A running machine whose `pc` addresses a JMP inside memory jumps to the byte after it. -/
theorem step_jmp {s : State} (hs : s.AboutToFetch) (hc : s.cfg.wf = true) (hin : s.pc.toNat + 1 < s.cfg.memSize)
    (hop : s.mem.read s.pc.toNat = s.cfg.opcodeMap.byteOf .jmp) :
    step s = .next (s.jump (s.mem.read (s.pc.toNat + 1))) := by
  have hcount : Opcode.jmp.operandCount = 1 := rfl
  rw [step_assigned_opcode s hs hc .jmp (by omega) hop.symm, if_neg (by omega)]
  exact exec_jmp _ s

/-- Settles O46: the jump is not checked, and the fetch after it finds `pc` outside memory. -/
theorem aJumpBeyondMemoryFaultsAtTheNextFetch : Obligations.AJumpBeyondMemoryFaultsAtTheNextFetch := by
  rintro s a hs hc hin hop rfl hbeyond hlimit
  have hnext : (s.jump (s.mem.read (s.pc.toNat + 1))).AboutToFetch :=
    ⟨hs.1, (State.limitReached_eq_false_iff _).mpr hlimit⟩
  have hpc : (s.jump (s.mem.read (s.pc.toNat + 1))).pc.toNat = (s.mem.read (s.pc.toNat + 1)).toNat := zext9_toNat _
  exact ⟨_, step_jmp hs hc hin hop, hs.1, hpc, step_pc_outside _ hnext (hpc ▸ hbeyond)⟩

/-- RET where the cell above the stack pointer exists, in any state (R103). -/
theorem exec_ret_inside {s : State} (he : s.sp.toNat ≠ s.cfg.memSize - 1) (ha : s.popAddress < s.cfg.memSize) :
    exec .ret s = .next ((s.setSp (s.sp + 1)).jump (s.mem.read s.popAddress)) := by
  rw [exec_ret, s.stackEmpty_not he, guardFault_false, ok_bind, s.pop_inside ha, ok_bind, s.settle_ok]

/-- Settles O47: the pop undoes the push, and the popped byte is the return address, which fits a byte. -/
theorem callThenReturnComesBack : Obligations.CallThenReturnComesBack := by
  intro s a h hfree hpc
  refine ⟨_, exec_call_free a h hfree hpc, fun v hcfg hsp hcell => ?_⟩
  have hcfg : v.cfg = s.cfg := hcfg
  have hsp : v.sp = s.sp - 1 := hsp
  have hup : v.sp + 1 = s.sp := by rw [hsp, BitVec.sub_add_cancel]
  have haddr : v.popAddress = s.sp.toNat := congrArg BitVec.toNat hup
  have hcell : v.mem.read s.sp.toNat = BitVec.ofNat 8 (s.pc.toNat + 2) := hcell.trans (h.afterPush_read_same _)
  have hsome : v.sp.toNat ≠ v.cfg.memSize - 1 := by
    have := h.sp_pred hfree
    have := h.spHigh
    rw [hsp, hcfg]
    omega
  have hin : v.popAddress < v.cfg.memSize := by rw [haddr, hcfg]; exact h.sp_inside
  refine ⟨_, exec_ret_inside hsome hin, ?_, hup⟩
  rw [haddr, hcell]
  exact (zext9_toNat _).trans (by rw [BitVec.toNat_ofNat]; omega)

/-! ### A row of PUSHes (R104) -/

/-- What a row of pushes leaves: `sp` that many cells down, each register's byte in its cell, all else as it was. -/
structure PushedAll (rs : List Byte) (s t : State) : Prop where
  status : t.status = s.status
  cfg : t.cfg = s.cfg
  sp : t.sp.toNat + rs.length = s.sp.toNat
  cells : ∀ (n : Nat) (r : Byte) (i : RegIdx), rs[n]? = some r → r.toNat = i.val →
    t.mem.read (s.sp.toNat - n) = s.reg i
  others : ∀ a, a ≤ t.sp.toNat ∨ s.sp.toNat < a → t.mem.read a = s.mem.read a

theorem PushedAll.refl (s : State) : PushedAll [] s s where
  status := rfl
  cfg := rfl
  sp := rfl
  cells := fun _ _ _ h => by cases h
  others := fun _ _ => rfl

/-- The state after PUSH r where the stack has room; the program counter plays no part. -/
theorem exec_push_inside {s : State} {r : Byte} {i : RegIdx} (hr : r.toNat = i.val)
    (hfree : s.sp.toNat ≠ s.cfg.stackLow) (ha : s.sp.toNat < s.cfg.memSize) :
    exec (.push r) s = .next ((s.afterPush (s.reg i)).advance 2) := by
  have hpush : s.push (s.reg i) = .ok (s.afterPush (s.reg i)) := s.push_inside _ ha
  rw [exec_push, s.settle_register_valid _ r i hr, s.stackFull_not hfree, guardFault_false, ok_bind, hpush, ok_bind,
    s.settle_ok]

/-- One push, then a row of pushes, is a longer row of pushes. -/
theorem PushedAll.cons {rs : List Byte} {r : Byte} {i : RegIdx} {s t : State} (hr : r.toNat = i.val)
    (hm : s.mem.wf = true) (hsp : (s.sp - 1).toNat + 1 = s.sp.toNat)
    (h : PushedAll rs ((s.afterPush (s.reg i)).advance 2) t) : PushedAll (r :: rs) s t := by
  have hu : ((s.afterPush (s.reg i)).advance 2).sp.toNat + 1 = s.sp.toNat := hsp
  have hdown := h.sp
  refine ⟨h.status, h.cfg, by rw [List.length_cons]; omega, fun n r' j hn hj => ?cells, fun a ha => ?others⟩
  case others =>
    rw [h.others a (by omega)]
    exact s.mem.read_write_other s.sp.toNat a (s.reg i) (by omega)
  case cells =>
    cases n with
    | zero =>
      obtain rfl : r = r' := Option.some.inj hn
      obtain rfl : i = j := Fin.ext (hr.symm.trans hj)
      rw [Nat.sub_zero, h.others s.sp.toNat (.inr (by omega))]
      exact s.mem.read_write_same s.sp.toNat (s.reg i) hm
    | succ n =>
      have hcell := h.cells n r' j hn hj
      rw [show s.sp.toNat - (n + 1) = ((s.afterPush (s.reg i)).advance 2).sp.toNat - n by omega]
      exact hcell

/-- A row of pushes that the stack has room for succeeds. -/
theorem pushAll_answers {rs : List Byte} {s : State} (hrs : ∀ r ∈ rs, r.toNat < 8) (hm : s.mem.wf = true)
    (hin : s.sp.toNat < s.cfg.memSize) (hroom : s.cfg.stackLow + rs.length ≤ s.sp.toNat) :
    ∃ t, pushAll rs s = .next t ∧ PushedAll rs s t := by
  induction rs generalizing s with
  | nil => exact ⟨s, rfl, .refl s⟩
  | cons r rs ih =>
    obtain ⟨hr, hrs⟩ := List.forall_mem_cons.mp hrs
    rw [List.length_cons] at hroom
    have hsp := byte_pred_toNat s.sp (by omega)
    have hu : ((s.afterPush (s.reg ⟨r.toNat, hr⟩)).advance 2).sp.toNat + 1 = s.sp.toNat := hsp
    have hpush := exec_push_inside (s := s) (r := r) (i := ⟨r.toNat, hr⟩) rfl (by omega) hin
    obtain ⟨t, ht, hdone⟩ := ih (s := (s.afterPush (s.reg ⟨r.toNat, hr⟩)).advance 2) hrs
      (s.mem.wf_write _ _ hm) (lt_trans (by omega) hin) (show s.cfg.stackLow + rs.length ≤ _ by omega)
    exact ⟨t, by rw [pushAll, hpush]; exact ht, hdone.cons rfl hm hsp⟩

/-- Settles O48: the row of pushes has room up to the capacity, which ends at STACK_LOW. -/
theorem exactlyCapacityPushesSucceed : Obligations.ExactlyCapacityPushesSucceed := by
  intro s rs h _ hrs hsp hlen
  obtain ⟨hpos, -, hlow, -⟩ := h.ranges
  rw [Config.stackCapacity] at hlen
  obtain ⟨t, ht, hdone⟩ := pushAll_answers hrs h.memCanonical h.sp_inside (by omega)
  have hdown := hdone.sp
  refine ⟨t, ht, hdone.status, by omega, hsp ▸ hdone.cells, fun a ha => hdone.others a (by omega),
    fun hfull r hr => exec_push_full r t ⟨r.toNat, hr⟩ rfl ?_⟩
  rw [Config.stackCapacity] at hfull
  rw [hdone.cfg]
  omega

end Sys2Proof.Machine

/-!
PROOFS. Runs of any number of steps (R16, R99, R182, R183): a terminal status ends a run in one state, a JMP to itself
never reaches one, and a step limit always does.
-/

namespace Sys2Proof.Machine

/-! ### The end of a run (R183) -/

theorem run_terminal {s : State} (h : s.status.terminal = true) (n : Nat) :
    Host.Core.run Sys2Proof.core n s = .next s := by
  induction n with
  | zero => rfl
  | succ n ih => rw [run_succ n s s (step_terminal h), ih]

/-- Of two terminal states that a run reaches, the later is the earlier. -/
theorem run_terminal_eq {s t u : State} {a b : Nat} (hab : a ≤ b) (ht : Host.Core.run Sys2Proof.core a s = .next t)
    (hterm : t.status.terminal = true) (hu : Host.Core.run Sys2Proof.core b s = .next u) : t = u := by
  obtain ⟨d, rfl⟩ := Nat.exists_eq_add_of_le hab
  rw [run_add a d s t ht, run_terminal hterm] at hu
  cases hu
  rfl

/-- Settles O39: the end of a run is absorbing, so whichever of two ends comes first is the other. -/
theorem terminalStatusesAreFinal : Obligations.TerminalStatusesAreFinal := by
  refine ⟨fun n s h => run_terminal h n, fun s t u ⟨a, ha, hta⟩ ⟨b, hb, hub⟩ => ?_⟩
  rcases Nat.le_total a b with hab | hba
  · exact run_terminal_eq hab ha hta hb
  · exact (run_terminal_eq hba hb hub ha).symm

/-! ### A jump to itself (R99) -/

/-- A running machine without a step limit whose `pc` addresses a JMP to that address. -/
structure State.JumpsToItself (s : State) : Prop where
  running : s.status = .running
  noLimit : s.cfg.stepLimit = none
  cfgOk : s.cfg.wf = true
  inside : s.pc.toNat + 1 < s.cfg.memSize
  opcode : s.mem.read s.pc.toNat = s.cfg.opcodeMap.byteOf .jmp
  target : (s.mem.read (s.pc.toNat + 1)).toNat = s.pc.toNat

theorem State.JumpsToItself.step_eq {s : State} (h : s.JumpsToItself) :
    step s = .next { s with steps := s.steps + 1 } := by
  have hl : s.cfg.stepLimit ≠ some s.steps := by rw [h.noLimit]; nofun
  have hs : s.AboutToFetch := ⟨h.running, s.limitReached_eq_false_iff.mpr hl⟩
  have hpc : zext9 (s.mem.read (s.pc.toNat + 1)) = s.pc := BitVec.eq_of_toNat_eq ((zext9_toNat _).trans h.target)
  rw [step_jmp hs h.cfgOk h.inside h.opcode, State.jump, hpc]
  rfl

/-- Every step counts one more, and changes nothing else. -/
theorem State.JumpsToItself.run_eq {s : State} (h : s.JumpsToItself) (n : Nat) :
    Host.Core.run Sys2Proof.core n s = .next { s with steps := s.steps + n } := by
  induction n generalizing s with
  | zero => rfl
  | succ n ih =>
    have hnext : State.JumpsToItself { s with steps := s.steps + 1 } := { h with }
    rw [run_succ n s _ h.step_eq, ih hnext, Nat.add_assoc, Nat.add_comm 1 n]

/-- Settles O52: after any number of steps the machine is where it was, so no state it reaches is terminal. -/
theorem aJumpToItselfNeverEnds : Obligations.AJumpToItselfNeverEnds := by
  intro s hinv hs hl hin hop htarget
  have h : s.JumpsToItself := ⟨hs, hl, hinv.cfgOk, hin, hop, htarget⟩
  refine ⟨fun n => ⟨_, h.run_eq n, hs, rfl, rfl, rfl⟩, fun ⟨t, n, hrun, hterm⟩ => ?_⟩
  rw [h.run_eq n] at hrun
  cases hrun
  rw [show ({ s with steps := s.steps + n } : State).status = .running from hs] at hterm
  cases hterm

/-! ### A step limit (R182) -/

/-- Below the limit a step of a running machine counts one instruction at most; it goes on only if it counts one. -/
theorem step_below_limit {s : State} (hs : s.AboutToFetch) :
    ∃ t, step s = .next t ∧ t.cfg = s.cfg ∧ t.steps ≤ s.steps + 1 ∧
      (t.status.terminal = true ∨ t.status = .running ∧ t.steps = s.steps + 1) := by
  obtain ⟨hrun, hl⟩ := hs
  cases hf : s.fetch with
  | error k => exact ⟨_, step_of_fetch_fault s k hrun hl hf, rfl, Nat.le_succ _, .inl rfl⟩
  | ok i =>
    rw [step_of_fetch s i hrun hl hf]
    obtain ⟨t, ht⟩ := (exec_explained i s).answers
    refine ⟨t, ht, (exec_parameters ht).1, ?_⟩
    rcases exec_inversion ht with hdone | ⟨k, -, rfl⟩
    · refine ⟨hdone.steps_eq.le, ?_⟩
      rcases hdone.status_cases with hsame | hhalted
      · exact .inr ⟨hsame.trans hrun, hdone.steps_eq⟩
      · exact .inl (hhalted ▸ rfl)
    · exact ⟨Nat.le_succ _, .inl rfl⟩

/-- With `d` instructions left below the limit a run ends within `d + 1` steps. -/
theorem run_ends_within_limit {d : Nat} {s : State} (hs : s.status = .running)
    (hl : s.cfg.stepLimit = some (s.steps + d)) :
    ∃ t, Host.Core.run Sys2Proof.core (d + 1) s = .next t ∧ t.status.terminal = true ∧ t.steps ≤ s.steps + d := by
  induction d generalizing s with
  | zero => exact ⟨_, run_succ 0 s _ (step_limit hs (s.limitReached_iff.mpr hl)), rfl, Nat.le_refl _⟩
  | succ d ih =>
    have hbelow : s.limitReached = false := by
      rw [s.limitReached_eq_false_iff, hl]
      exact fun h => absurd (Option.some.inj h) (by omega)
    obtain ⟨u, hu, hcfg, hsteps, hnext⟩ := step_below_limit ⟨hs, hbelow⟩
    rw [run_succ (d + 1) s u hu]
    rcases hnext with hterm | ⟨hrun, hcount⟩
    · exact ⟨u, run_terminal hterm _, hterm, by omega⟩
    · have hlimit : u.cfg.stepLimit = some (u.steps + d) := by rw [hcfg, hl, hcount]; congr 1; omega
      obtain ⟨t, ht, hterm, hle⟩ := ih hrun hlimit
      exact ⟨t, ht, hterm, by omega⟩

/-- Settles O53: the instructions left below the limit bound the run. -/
theorem aStepLimitBoundsTheRun : Obligations.AStepLimitBoundsTheRun := by
  intro s n hs hl hle
  obtain ⟨d, rfl⟩ := Nat.exists_eq_add_of_le hle
  obtain ⟨t, ht, hterm, hsteps⟩ := run_ends_within_limit hs hl
  rw [Nat.add_sub_cancel_left]
  exact ⟨t, ht, hterm, hsteps, _, ht, hterm⟩

end Sys2Proof.Machine
